-- ==== Sys2Proof/Word.lean ====
section
/-! DEFINITION. The word types of CHIP-8 (00_scope R6, R10, R11): unsigned bit vectors of the widths the spec gives,
and register numbers. -/
namespace Sys2Proof

/-- One memory cell, one general register, an 8-bit immediate `nn` (00_scope R6). -/
abbrev Byte := BitVec 8

/-- An instruction word, and the width of `I`, `pc` and a stack slot (00_scope R6). -/
abbrev Word := BitVec 16

/-- The 4-bit immediate `n` (30_encoding R81). -/
abbrev Nibble := BitVec 4

/-- The 12-bit address immediate `nnn` (30_encoding R81). -/
abbrev Addr12 := BitVec 12

/-- A register number, 0 to 15, naming V0 to VF (10_state R31). -/
abbrev Reg := Fin 16

/-- VF, the flag register (10_state R32). -/
abbrev flagReg : Reg := 15

end Sys2Proof
end

