-- ==== Sys2Proof/Config.lean ====
section
/-! DEFINITION. What is fixed for one machine, and the free value the spec leaves to the random source.
The parameters are data the State carries unchanged (notes/assumptions/1.md), so that a statement about every state
is a statement about every `FONT` and both values of `STRICT_5_9`. -/
namespace Sys2Proof

/-- The parameters a model takes as arguments (00_scope R7, R8; 93_implementation_defined S5, S6). -/
structure Config where
  /-- `STRICT_5_9` (R8): true makes `5xyn` and `9xyn` with `n != 0` illegal, false makes `n` ignored. -/
  strict59 : Bool
  /-- `FONT` (R7): 16 glyphs of 5 bytes, glyph `d` at offset `5*d`. -/
  font : Vector Byte 80
  deriving DecidableEq, Repr

/-- FREE VALUE (42_alu R152, 92_eei_decisions D16): the random source's byte for draw number `k`. It has no body, so a
claim that holds of it holds for every byte the random source may supply (notes/assumptions/2.md). -/
opaque Config.randomByte : Nat → Byte

end Sys2Proof
end

