-- ==== Sys2Proof/Syntax.lean ====
section
/-! DEFINITION. The instructions: one constructor per row of spec/opcode_table.json, in the order of 30_encoding R85.
Operands are the fields of R81. Bits a legal instruction ignores (R88: `y` of SHR and SHL, `n` of the register skips
when STRICT_5_9 is false) are kept as operands, so that no bit of an encoding is dropped (notes/assumptions/12.md). -/
namespace Sys2Proof

inductive Instr where
  /-- `00E0` CLS (R200). -/
  | cls
  /-- `00EE` RET (R111). -/
  | ret
  /-- `1nnn` JP nnn (R112). -/
  | jp (nnn : Addr12)
  /-- `2nnn` CALL nnn (R113). -/
  | call (nnn : Addr12)
  /-- `3xnn` SE Vx, nn (R114). -/
  | seImm (x : Reg) (nn : Byte)
  /-- `4xnn` SNE Vx, nn (R115). -/
  | sneImm (x : Reg) (nn : Byte)
  /-- `5xyn` SE Vx, Vy (R116); `n` is 0 when STRICT_5_9 is true and ignored when it is false (R8, R88). -/
  | seReg (x y : Reg) (n : Nibble)
  /-- `6xnn` LD Vx, nn (R141). -/
  | ldImm (x : Reg) (nn : Byte)
  /-- `7xnn` ADD Vx, nn (R142). -/
  | addImm (x : Reg) (nn : Byte)
  /-- `8xy0` LD Vx, Vy (R143). -/
  | ldReg (x y : Reg)
  /-- `8xy1` OR Vx, Vy (R144). -/
  | orReg (x y : Reg)
  /-- `8xy2` AND Vx, Vy (R145). -/
  | andReg (x y : Reg)
  /-- `8xy3` XOR Vx, Vy (R146). -/
  | xorReg (x y : Reg)
  /-- `8xy4` ADD Vx, Vy (R147). -/
  | addReg (x y : Reg)
  /-- `8xy5` SUB Vx, Vy (R148). -/
  | subReg (x y : Reg)
  /-- `8xy6` SHR Vx (R149); `y` is ignored (R88). -/
  | shr (x y : Reg)
  /-- `8xy7` SUBN Vx, Vy (R150). -/
  | subnReg (x y : Reg)
  /-- `8xyE` SHL Vx (R151); `y` is ignored (R88). -/
  | shl (x y : Reg)
  /-- `9xyn` SNE Vx, Vy (R117); `n` as in `5xyn`. -/
  | sneReg (x y : Reg) (n : Nibble)
  /-- `Annn` LD I, nnn (R180). -/
  | ldI (nnn : Addr12)
  /-- `Bnnn` JP V0, nnn (R118). -/
  | jpV0 (nnn : Addr12)
  /-- `Cxnn` RND Vx, nn (R152). -/
  | rnd (x : Reg) (nn : Byte)
  /-- `Dxyn` DRW Vx, Vy, n (R201). -/
  | drw (x y : Reg) (n : Nibble)
  /-- `Ex9E` SKP Vx (R220). -/
  | skp (x : Reg)
  /-- `ExA1` SKNP Vx (R221). -/
  | sknp (x : Reg)
  /-- `Fx07` LD Vx, DT (R222). -/
  | ldVxDT (x : Reg)
  /-- `Fx0A` LD Vx, K (R223). -/
  | ldVxK (x : Reg)
  /-- `Fx15` LD DT, Vx (R225). -/
  | ldDTVx (x : Reg)
  /-- `Fx18` LD ST, Vx (R226). -/
  | ldSTVx (x : Reg)
  /-- `Fx1E` ADD I, Vx (R181). -/
  | addI (x : Reg)
  /-- `Fx29` LD F, Vx (R182). -/
  | ldF (x : Reg)
  /-- `Fx33` LD B, Vx (R183). -/
  | ldB (x : Reg)
  /-- `Fx55` LD [I], Vx (R184). -/
  | dump (x : Reg)
  /-- `Fx65` LD Vx, [I] (R185). -/
  | load (x : Reg)
  deriving DecidableEq, Repr

end Sys2Proof
end

