-- ==== Sys2Proof/WellFormed.lean ====
section
/-! DEFINITION. Which terms of `Instr` some word of the opcode map encodes, under a value of STRICT_5_9 (00_scope R8).
Field widths are carried by the types; the one check left is the low nibble of the register skips. -/
namespace Sys2Proof

/-- 30_encoding R84, R88: under STRICT_5_9 = true the nibble `n` of `5xyn` and `9xyn` must be 0; under false any `n`
is accepted. Every other instruction is well formed whatever its operands. -/
def Instr.wf (strict : Bool) : Instr → Bool
  | .seReg _ _ n => !strict || n == 0#4
  | .sneReg _ _ n => !strict || n == 0#4
  | .cls | .ret | .jp _ | .call _ | .seImm _ _ | .sneImm _ _ | .ldImm _ _ | .addImm _ _ | .ldReg _ _ | .orReg _ _
  | .andReg _ _ | .xorReg _ _ | .addReg _ _ | .subReg _ _ | .shr _ _ | .subnReg _ _ | .shl _ _ | .ldI _ | .jpV0 _
  | .rnd _ _ | .drw _ _ _ | .skp _ | .sknp _ | .ldVxDT _ | .ldVxK _ | .ldDTVx _ | .ldSTVx _ | .addI _ | .ldF _
  | .ldB _ | .dump _ | .load _ => true

end Sys2Proof
end

