-- ==== Sys2Proof/Decode.lean ====
section
/-! DEFINITION. The opcode decoder (30_encoding R81 to R88, R95, R96), total on any word and any bytes, and the encoder
written from the same opcode map (R85). -/
namespace Sys2Proof

/-- Why the decoder gives no instruction. -/
inductive DecodeError where
  /-- The word matches no row of the opcode map: `ILLEGAL` (R86, R87). -/
  | illegal (w : Word)
  /-- Fewer than two bytes were given; every instruction is one 16-bit word (R80). -/
  | truncated
  deriving DecidableEq, Repr

/-! ### Byte order -/

/-- Big-endian join of 20_memory R64: the byte at the lower address is the high byte. -/
def joinBytes (high low : Byte) : Word := high ++ low

/-- The two bytes of a word in the order memory holds them, lower address first (20_memory R64). -/
def storedBytes (w : Word) : List Byte := [w.extractLsb' 8 8, w.extractLsb' 0 8]

/-! ### The fields of R81 -/

/-- `op`, bits 15..12. -/
def fieldOp (w : Word) : BitVec 4 := w.extractLsb' 12 4
/-- `x`, bits 11..8. -/
def fieldX (w : Word) : Reg := (w.extractLsb' 8 4).toFin
/-- `y`, bits 7..4. -/
def fieldY (w : Word) : Reg := (w.extractLsb' 4 4).toFin
/-- `n`, bits 3..0. -/
def fieldN (w : Word) : Nibble := w.extractLsb' 0 4
/-- `nn`, bits 7..0. -/
def fieldNN (w : Word) : Byte := w.extractLsb' 0 8
/-- `nnn`, bits 11..0. -/
def fieldNNN (w : Word) : Addr12 := w.extractLsb' 0 12

/-- STRICT_5_9's default value (00_scope R8). -/
def strict59Default : Bool := true

/-! ### Decode, by the dispatch of R84 -/

/-- Family 0x0: the whole word must be 0x00E0 or 0x00EE (R84, D3). -/
def decodeFamily0 (w : Word) : Except DecodeError Instr :=
  if w = 0x00E0#16 then .ok .cls else if w = 0x00EE#16 then .ok .ret else .error (.illegal w)

/-- Families 0x5 and 0x9: under STRICT_5_9 the nibble `n` must be 0 (R84, R8, D4). -/
def decodeRegSkip (strict : Bool) (w : Word) (mk : Reg → Reg → Nibble → Instr) : Except DecodeError Instr :=
  if strict && fieldN w != 0#4 then .error (.illegal w) else .ok (mk (fieldX w) (fieldY w) (fieldN w))

/-- Family 0x8, dispatched on `n` (R84). -/
def decodeFamily8 (w : Word) : Except DecodeError Instr :=
  match fieldN w with
  | 0x0#4 => .ok (.ldReg (fieldX w) (fieldY w))
  | 0x1#4 => .ok (.orReg (fieldX w) (fieldY w))
  | 0x2#4 => .ok (.andReg (fieldX w) (fieldY w))
  | 0x3#4 => .ok (.xorReg (fieldX w) (fieldY w))
  | 0x4#4 => .ok (.addReg (fieldX w) (fieldY w))
  | 0x5#4 => .ok (.subReg (fieldX w) (fieldY w))
  | 0x6#4 => .ok (.shr (fieldX w) (fieldY w))
  | 0x7#4 => .ok (.subnReg (fieldX w) (fieldY w))
  | 0xE#4 => .ok (.shl (fieldX w) (fieldY w))
  | _ => .error (.illegal w)

/-- Family 0xE, dispatched on `nn` (R84). -/
def decodeFamilyE (w : Word) : Except DecodeError Instr :=
  match fieldNN w with
  | 0x9E#8 => .ok (.skp (fieldX w))
  | 0xA1#8 => .ok (.sknp (fieldX w))
  | _ => .error (.illegal w)

/-- Family 0xF, dispatched on `nn` (R84). -/
def decodeFamilyF (w : Word) : Except DecodeError Instr :=
  match fieldNN w with
  | 0x07#8 => .ok (.ldVxDT (fieldX w))
  | 0x0A#8 => .ok (.ldVxK (fieldX w))
  | 0x15#8 => .ok (.ldDTVx (fieldX w))
  | 0x18#8 => .ok (.ldSTVx (fieldX w))
  | 0x1E#8 => .ok (.addI (fieldX w))
  | 0x29#8 => .ok (.ldF (fieldX w))
  | 0x33#8 => .ok (.ldB (fieldX w))
  | 0x55#8 => .ok (.dump (fieldX w))
  | 0x65#8 => .ok (.load (fieldX w))
  | _ => .error (.illegal w)

/-- `Decode(w)` of R86 under a value of STRICT_5_9: total, and it reads nothing but the word (R96). The last arm is
family 0xF, the only value of `op` left. -/
def decode (strict : Bool) (w : Word) : Except DecodeError Instr :=
  match fieldOp w with
  | 0x0#4 => decodeFamily0 w
  | 0x1#4 => .ok (.jp (fieldNNN w))
  | 0x2#4 => .ok (.call (fieldNNN w))
  | 0x3#4 => .ok (.seImm (fieldX w) (fieldNN w))
  | 0x4#4 => .ok (.sneImm (fieldX w) (fieldNN w))
  | 0x5#4 => decodeRegSkip strict w .seReg
  | 0x6#4 => .ok (.ldImm (fieldX w) (fieldNN w))
  | 0x7#4 => .ok (.addImm (fieldX w) (fieldNN w))
  | 0x8#4 => decodeFamily8 w
  | 0x9#4 => decodeRegSkip strict w .sneReg
  | 0xA#4 => .ok (.ldI (fieldNNN w))
  | 0xB#4 => .ok (.jpV0 (fieldNNN w))
  | 0xC#4 => .ok (.rnd (fieldX w) (fieldNN w))
  | 0xD#4 => .ok (.drw (fieldX w) (fieldY w) (fieldN w))
  | 0xE#4 => decodeFamilyE w
  | _ => decodeFamilyF w

/-- The decoder on a byte sequence, lower address first: the instruction and the bytes after it. -/
def decodeBytes (strict : Bool) : List Byte → Except DecodeError (Instr × List Byte)
  | high :: low :: rest =>
    match decode strict (joinBytes high low) with
    | .ok i => .ok (i, rest)
    | .error e => .error e
  | [_] => .error .truncated
  | [] => .error .truncated

/-- The host's probe: the instruction the decoder reads from the word whose bits are `w`, numbered as
spec/opcode_table.json numbers them, stored as the hardware stores it (20_memory R64), under the default STRICT_5_9. -/
def decodeTableWord (nbits w : Nat) : Option Instr :=
  match decodeBytes strict59Default (storedBytes (BitVec.ofNat 16 (w % 2 ^ nbits))) with
  | .ok (i, _) => some i
  | .error _ => none

/-! ### The opcode map of R85 and the decoder outputs of R95 and R96 -/

/-- One row of R85: a word `w` selects it when `w & mask = pattern`. -/
structure OpcodeRow where
  id : Nat
  mask : Word
  pattern : Word
  deriving DecidableEq, Repr

/-- The op id `ILLEGAL` (R86, R95). -/
def illegalId : Nat := 63

/-- The mask of rows 6 and 18: 0xF00F, or 0xF000 under STRICT_5_9 = false (R85). -/
def regSkipMask (strict : Bool) : Word := if strict then 0xF00F#16 else 0xF000#16

/-- The opcode map, row by row in the order of R85. -/
def opcodeMap (strict : Bool) : List OpcodeRow :=
  [⟨0, 0xFFFF, 0x00E0⟩, ⟨1, 0xFFFF, 0x00EE⟩, ⟨2, 0xF000, 0x1000⟩, ⟨3, 0xF000, 0x2000⟩, ⟨4, 0xF000, 0x3000⟩,
   ⟨5, 0xF000, 0x4000⟩, ⟨6, regSkipMask strict, 0x5000⟩, ⟨7, 0xF000, 0x6000⟩, ⟨8, 0xF000, 0x7000⟩] ++
  [⟨9, 0xF00F, 0x8000⟩, ⟨10, 0xF00F, 0x8001⟩, ⟨11, 0xF00F, 0x8002⟩, ⟨12, 0xF00F, 0x8003⟩, ⟨13, 0xF00F, 0x8004⟩,
   ⟨14, 0xF00F, 0x8005⟩, ⟨15, 0xF00F, 0x8006⟩, ⟨16, 0xF00F, 0x8007⟩, ⟨17, 0xF00F, 0x800E⟩] ++
  [⟨18, regSkipMask strict, 0x9000⟩, ⟨19, 0xF000, 0xA000⟩, ⟨20, 0xF000, 0xB000⟩, ⟨21, 0xF000, 0xC000⟩,
   ⟨22, 0xF000, 0xD000⟩, ⟨23, 0xF0FF, 0xE09E⟩, ⟨24, 0xF0FF, 0xE0A1⟩] ++
  [⟨25, 0xF0FF, 0xF007⟩, ⟨26, 0xF0FF, 0xF00A⟩, ⟨27, 0xF0FF, 0xF015⟩, ⟨28, 0xF0FF, 0xF018⟩, ⟨29, 0xF0FF, 0xF01E⟩,
   ⟨30, 0xF0FF, 0xF029⟩, ⟨31, 0xF0FF, 0xF033⟩, ⟨32, 0xF0FF, 0xF055⟩, ⟨33, 0xF0FF, 0xF065⟩]

/-- Whether a word selects a row (R85). -/
def rowMatches (w : Word) (r : OpcodeRow) : Bool := w &&& r.mask == r.pattern

/-- The op id R86's loop over the rows gives: the first row that matches, else ILLEGAL. -/
def opcodeMapId (strict : Bool) (w : Word) : Nat :=
  match (opcodeMap strict).find? (rowMatches w) with
  | some r => r.id
  | none => illegalId

/-- The op id of each instruction (R85, R95). -/
def opId : Instr → Nat
  | .cls => 0
  | .ret => 1
  | .jp _ => 2
  | .call _ => 3
  | .seImm _ _ => 4
  | .sneImm _ _ => 5
  | .seReg _ _ _ => 6
  | .ldImm _ _ => 7
  | .addImm _ _ => 8
  | .ldReg _ _ => 9
  | .orReg _ _ => 10
  | .andReg _ _ => 11
  | .xorReg _ _ => 12
  | .addReg _ _ => 13
  | .subReg _ _ => 14
  | .shr _ _ => 15
  | .subnReg _ _ => 16
  | .shl _ _ => 17
  | .sneReg _ _ _ => 18
  | .ldI _ => 19
  | .jpV0 _ => 20
  | .rnd _ _ => 21
  | .drw _ _ _ => 22
  | .skp _ => 23
  | .sknp _ => 24
  | .ldVxDT _ => 25
  | .ldVxK _ => 26
  | .ldDTVx _ => 27
  | .ldSTVx _ => 28
  | .addI _ => 29
  | .ldF _ => 30
  | .ldB _ => 31
  | .dump _ => 32
  | .load _ => 33

/-- The decoder's output tuple (R96): the op id, and every field sliced whatever the id. -/
structure DecoderOutput where
  id : Nat
  x : Reg
  y : Reg
  n : Nibble
  nn : Byte
  nnn : Addr12
  deriving DecidableEq, Repr

/-- What the decoder gives out for a word (R86, R95, R96). -/
def decoderOutput (strict : Bool) (w : Word) : DecoderOutput :=
  { id := match decode strict w with
      | .ok i => opId i
      | .error _ => illegalId
    x := fieldX w, y := fieldY w, n := fieldN w, nn := fieldNN w, nnn := fieldNNN w }

/-! ### The encoder, from the patterns of R85 -/

/-- A register number as its 4-bit field. -/
def regBits (x : Reg) : BitVec 4 := BitVec.ofFin x

/-- Layout `o nnn` (R83, format A). -/
def wordA (op : BitVec 4) (nnn : Addr12) : Word := op ++ nnn
/-- Layout `o x nn` (R83, formats XB and X). -/
def wordXB (op : BitVec 4) (x : Reg) (nn : Byte) : Word := op ++ regBits x ++ nn
/-- Layout `o x y n` (R83, formats XY and XYN). -/
def wordXYN (op : BitVec 4) (x y : Reg) (n : Nibble) : Word := op ++ regBits x ++ regBits y ++ n

/-- The word of an instruction (R83, R85). -/
def encode : Instr → Word
  | .cls => 0x00E0#16
  | .ret => 0x00EE#16
  | .jp nnn => wordA 0x1#4 nnn
  | .call nnn => wordA 0x2#4 nnn
  | .seImm x nn => wordXB 0x3#4 x nn
  | .sneImm x nn => wordXB 0x4#4 x nn
  | .seReg x y n => wordXYN 0x5#4 x y n
  | .ldImm x nn => wordXB 0x6#4 x nn
  | .addImm x nn => wordXB 0x7#4 x nn
  | .ldReg x y => wordXYN 0x8#4 x y 0x0#4
  | .orReg x y => wordXYN 0x8#4 x y 0x1#4
  | .andReg x y => wordXYN 0x8#4 x y 0x2#4
  | .xorReg x y => wordXYN 0x8#4 x y 0x3#4
  | .addReg x y => wordXYN 0x8#4 x y 0x4#4
  | .subReg x y => wordXYN 0x8#4 x y 0x5#4
  | .shr x y => wordXYN 0x8#4 x y 0x6#4
  | .subnReg x y => wordXYN 0x8#4 x y 0x7#4
  | .shl x y => wordXYN 0x8#4 x y 0xE#4
  | .sneReg x y n => wordXYN 0x9#4 x y n
  | .ldI nnn => wordA 0xA#4 nnn
  | .jpV0 nnn => wordA 0xB#4 nnn
  | .rnd x nn => wordXB 0xC#4 x nn
  | .drw x y n => wordXYN 0xD#4 x y n
  | .skp x => wordXB 0xE#4 x 0x9E#8
  | .sknp x => wordXB 0xE#4 x 0xA1#8
  | .ldVxDT x => wordXB 0xF#4 x 0x07#8
  | .ldVxK x => wordXB 0xF#4 x 0x0A#8
  | .ldDTVx x => wordXB 0xF#4 x 0x15#8
  | .ldSTVx x => wordXB 0xF#4 x 0x18#8
  | .addI x => wordXB 0xF#4 x 0x1E#8
  | .ldF x => wordXB 0xF#4 x 0x29#8
  | .ldB x => wordXB 0xF#4 x 0x33#8
  | .dump x => wordXB 0xF#4 x 0x55#8
  | .load x => wordXB 0xF#4 x 0x65#8

end Sys2Proof
end

