-- ==== Sys2Proof/Machine/State.lean ====
section
/-! DEFINITION. The state of the core as plain data: every element of 10_state R30, the parameters of 00_scope R7 and
R8, and three fields of the model's own (host, loadOpen, draws). The fault numbers of 60_exceptions R300, the host
operations of 70_reset R343, and the state after reset (10_state R45). -/
namespace Sys2Proof.Machine

/-- The fault numbers of 60_exceptions R300, each under its name. A spec fault is an effect on the state (R301): it is
a NEXT state, not an outcome `fault` (notes/assumptions/6.md). -/
inductive FaultCode where
  /-- 0: no fault has occurred. -/
  | none
  /-- 1: `2nnn` with `sp = 16` (R113). -/
  | stackOverflow
  /-- 2: `00EE` with `sp = 0` (R111). -/
  | stackUnderflow
  /-- 3: fetch with `pc > 0xFFE` (R65). -/
  | fetchOutOfRange
  /-- 4: fetch with an odd `pc` (R66). -/
  | misalignedFetch
  /-- 5: the word matches no row (R86). -/
  | illegalOpcode
  /-- 6: a data address above 0xFFF (R62, R63). -/
  | dataOutOfRange
  /-- 7: a data write below 0x200 (R63). -/
  | reservedWrite
  /-- 8: a key number above 15 (R220, R221). -/
  | keyIndexOutOfRange
  /-- 9: a ROM longer than 3584 bytes (R341). -/
  | romTooLarge
  deriving DecidableEq, Repr

/-- The outcome `fault` of the host's interface. It has NO constructor: the spec gives every fault an effect on the
state (60_exceptions R301), so no step of this model ends in the outcome `fault`. Safe: nothing is left out, the
faults are next states with `halted` set (notes/assumptions/6.md). -/
inductive Fault
  deriving DecidableEq, Repr

/-- Where the model has no meaning. -/
inductive Refusal where
  /-- An instruction whose meaning is not written, by its mnemonic. Raised by no arm of this model. Safe. -/
  | notModelled (mnemonic : String)
  /-- A host `Load` that the spec does not admit: a second one, one after the first `Cycle`, or one when halted
  (70_reset R341, 92 D21, 93 S7: "refuse"). Raised by the host operation `load`, never by an instruction. Safe. -/
  | loadNotAdmitted
  deriving DecidableEq, Repr

/-- The host's operations (70_reset R343). -/
inductive HostOp where
  /-- `Reset()` (R340). -/
  | reset
  /-- `Load(rom)` (R341). -/
  | load (rom : List Byte)
  /-- `SetKeys(k)`, bit `i` = key `i` pressed (R228). -/
  | setKeys (k : Word)
  /-- `Cycle()` (R91). -/
  | cycle
  /-- `Tick()` (R227). -/
  | tick
  deriving DecidableEq, Repr

/-- Memory: the bytes that differ from the reset contents, as (address, byte) pairs, addresses strictly rising
(notes/assumptions/10.md). -/
abbrev Memory := List Host.Cell

/-- The display buffer (10_state R39): row `r` is a 64-bit value whose bit `c` is the pixel in column `c`
(notes/assumptions/11.md). -/
abbrev Display := Vector (BitVec 64) 32

/-- The state record of 10_state R30, the parameters, and the model's own fields. -/
structure State where
  /-- 4096 bytes (R41). -/
  mem : Memory
  /-- V0 to VF (R31). -/
  V : Vector Byte 16
  /-- The index register (R34). -/
  I : Word
  /-- The program counter (R35). -/
  pc : Word
  /-- The return stack (R37). -/
  stack : Vector Word 16
  /-- How many stack slots are occupied, 0 to 16 (R37). -/
  sp : Fin 17
  /-- The delay timer (R38). -/
  DT : Byte
  /-- The sound timer (R38). -/
  ST : Byte
  /-- The display buffer (R39). -/
  disp : Display
  /-- The keypad, bit `k` = key `k` pressed (R40). -/
  keys : Word
  /-- The wait state: `some x` while `Fx0A` waits to write Vx (R42). -/
  wait : Option Reg
  /-- The keys at the last sample of a wait (R42). -/
  keyPrev : Word
  /-- Set by the first fatal fault (R43). -/
  halted : Bool
  /-- The first fault's number (R43). -/
  faultCode : FaultCode
  /-- The address of the instruction or fetch that faulted (R43). -/
  faultPc : Word
  /-- PARAMETERS FONT and STRICT_5_9 (00_scope R7, R8); nothing writes them. -/
  config : Config
  /-- MODEL'S OWN: the host operations chosen and not yet performed, oldest first (70_reset R344). -/
  host : List HostOp
  /-- MODEL'S OWN: a `Load` is still admitted (70_reset R341). -/
  loadOpen : Bool
  /-- MODEL'S OWN: how many random bytes have been drawn (42_alu R152). -/
  draws : Nat
  deriving DecidableEq, Repr

/-- The machine right after reset (10_state R45, 70_reset R340), with the default parameters, no host operation
chosen, a `Load` admitted and no random byte drawn. -/
def State.reset : State :=
  { mem := []
    V := Vector.replicate 16 0
    I := 0
    pc := 0x200
    stack := Vector.replicate 16 0
    sp := 0
    DT := 0
    ST := 0
    disp := Vector.replicate 32 0
    keys := 0
    wait := none
    keyPrev := 0
    halted := false
    faultCode := .none
    faultPc := 0
    config := defaultConfig
    host := []
    loadOpen := true
    draws := 0 }

end Sys2Proof.Machine
end

