-- ==== Sys2Proof/Machine/Ops.lean ====
section
/-! DEFINITION. The named operations over registers and memory (00_scope R13), and raising a fault, the one shared
operation of 60_exceptions R301. There is no return from a fault (R305); the only way out is the host's Reset
(Machine/HostOps.lean). -/
namespace Sys2Proof.Machine

/-- What one step answers. -/
abbrev Result := Host.Outcome State Fault Refusal

/-! ### Registers -/

/-- `V[x]` (R13). -/
def readV (s : State) (x : Reg) : Byte := s.V[x]

/-- `V[x] <- v` (R13). -/
def writeV (x : Reg) (v : Byte) (s : State) : State := { s with V := s.V.set x v }

/-- The pre-dispatch advance of 30_encoding R92: `pc <- ia + 2`. -/
def advance (s : State) : State := { s with pc := s.pc + 2 }

/-- `pc <- target` (R13). -/
def setPc (target : Word) (s : State) : State := { s with pc := target }

/-- `I <- a` (R34). -/
def setI (a : Word) (s : State) : State := { s with I := a }

/-- The pixel in row `r` and column `c` of a buffer (10_state R39); off outside the 64 by 32 grid. -/
def pixel (d : Display) (r c : Nat) : Bool := if h : r < 32 then d[r].getLsbD c else false

/-! ### Memory cells -/

/-- The first address of the font (20_memory R70). -/
def fontBase : Nat := 0x050

/-- What an address holds after reset, and so what an unlisted address reads as (10_state R45): FONT at 0x050..0x09F,
0 elsewhere. -/
def resetByte (font : Vector Byte 80) (a : Nat) : Byte :=
  if h : fontBase ≤ a ∧ a - fontBase < 80 then font[a - fontBase]'h.2 else 0

/-- The byte at an address. -/
def memGet (font : Vector Byte 80) : Memory → Nat → Byte
  | [], a => resetByte font a
  | (k, b) :: m, a => if a = k then b else memGet font m a

/-- The entry an address needs to hold a byte: none when that is its reset contents. -/
def cellFor (font : Vector Byte 80) (a : Nat) (v : Byte) : Memory :=
  if v = resetByte font a then [] else [(a, v)]

/-- Memory with one byte changed, in canonical form again. -/
def memSet (font : Vector Byte 80) : Memory → Nat → Byte → Memory
  | [], a, v => cellFor font a v
  | (k, b) :: m, a, v =>
    if a < k then cellFor font a v ++ (k, b) :: m
    else if a = k then cellFor font a v ++ m
    else (k, b) :: memSet font m a v

/-- Memory with a run of bytes stored from an address upwards. -/
def memSetRun (font : Vector Byte 80) (m : Memory) (a : Nat) : List Byte → Memory
  | [] => m
  | b :: bs => memSetRun font (memSet font m a b) (a + 1) bs

/-- Canonical form from an address upwards: addresses strictly rising and inside the 4096-byte space, and no entry
equal to what an unlisted address reads as. -/
def wfFrom (font : Vector Byte 80) : Nat → Memory → Bool
  | _, [] => true
  | low, (k, b) :: m => decide (low ≤ k) && decide (k < 0x1000) && (b != resetByte font k) && wfFrom font (k + 1) m

/-- The canonical form of memory. -/
def Memory.wf (font : Vector Byte 80) (m : Memory) : Bool := wfFrom font 0 m

/-- The byte the state's memory holds at an address. -/
def readByte (s : State) (a : Nat) : Byte := memGet s.config.font s.mem a

/-! ### Data access (20_memory R61 to R63); addresses are unbounded naturals -/

/-- `MemRead(a, 1)` (R62). -/
def memRead (s : State) (a : Nat) : Except FaultCode Byte :=
  if 0xFFF < a then .error .dataOutOfRange else .ok (readByte s a)

/-- `MemWrite(a, 1, v)` (R63). -/
def memWrite (a : Nat) (v : Byte) (s : State) : Except FaultCode State :=
  if 0xFFF < a then .error .dataOutOfRange
  else if a < 0x200 then .error .reservedWrite
  else .ok { s with mem := memSet s.config.font s.mem a v }

/-- `n` reads at `a`, `a + 1`, ... in that order (20_memory R67, R73). -/
def readBytes (s : State) : Nat → Nat → Except FaultCode (List Byte)
  | _, 0 => .ok []
  | a, n + 1 =>
    match memRead s a with
    | .error c => .error c
    | .ok b =>
      match readBytes s (a + 1) n with
      | .error c => .error c
      | .ok bs => .ok (b :: bs)

/-- Writes at `a`, `a + 1`, ... in that order (20_memory R67, R73). -/
def writeBytes (a : Nat) : List Byte → State → Except FaultCode State
  | [], s => .ok s
  | b :: bs, s =>
    match memWrite a b s with
    | .error c => .error c
    | .ok t => writeBytes (a + 1) bs t

/-! ### Faults -/

/-- The number of a fault code (60_exceptions R300). -/
def faultNumber : FaultCode → Nat
  | .none => 0
  | .stackOverflow => 1
  | .stackUnderflow => 2
  | .fetchOutOfRange => 3
  | .misalignedFetch => 4
  | .illegalOpcode => 5
  | .dataOutOfRange => 6
  | .reservedWrite => 7
  | .keyIndexOutOfRange => 8
  | .romTooLarge => 9

/-- `raise Fault(code)` (60_exceptions R301). It is given the state at the START of the cycle, whose `pc` is `ia`, so
every write of the faulting instruction is undone. -/
def raise (c : FaultCode) (s : State) : State := { s with halted := true, faultCode := c, faultPc := s.pc }

/-- The end of an instruction that may fault: the state it computed, or the fault taken on the state `s` at the start
of the cycle. -/
def complete (s : State) (r : Except FaultCode State) : Result :=
  match r with
  | .ok t => .next t
  | .error c => .next (raise c s)

end Sys2Proof.Machine
end

