-- ==== Sys2Proof/Machine/Flags.lean ====
section
/-! DEFINITION. The 8-bit ALU: results mod 256 and the flag each operation defines (42_alu R140, R147 to R151;
10_state R32, R33). The flag is exactly 0 or 1. -/
namespace Sys2Proof.Machine

/-- A flag as VF's value: 1 or 0 (R140). -/
def flagByte (f : Bool) : Byte := if f then 1 else 0

/-- The sum mod 256 and the carry out of bit 7 (R147). -/
def aluAdd (a b : Byte) : Byte × Bool := (a + b, decide (255 < a.toNat + b.toNat))

/-- `a - b` mod 256 and "no borrow" (R148, R150). -/
def aluSub (a b : Byte) : Byte × Bool := (a - b, decide (b.toNat ≤ a.toNat))

/-- `a >> 1` and the bit shifted out (R149). -/
def aluShr (a : Byte) : Byte × Bool := (a >>> 1, a.getLsbD 0)

/-- `(a << 1) mod 256` and the bit shifted out (R151). -/
def aluShl (a : Byte) : Byte × Bool := (a <<< 1, a.getLsbD 7)

/-- VF written as a flag. -/
def writeFlag (f : Bool) (s : State) : State := writeV flagReg (flagByte f) s

/-- The result to Vx first and the flag to VF second, so the flag wins when `x = F` (10_state R33, D5). -/
def writeResultFlag (x : Reg) (r : Byte × Bool) (s : State) : State := writeFlag r.2 (writeV x r.1 s)

end Sys2Proof.Machine
end

