-- ==== Sys2Proof/Machine/Operands.lean ====
section
/-! DEFINITION. The operand forms: immediates and widening (30_encoding R82), the skip (41_control_flow R110), index
addresses (43_index_memory R186), the glyph address (R182), BCD digits (R183), register blocks (R184, R185), the key
number (45_keys_timers R220) and sprite rows (44_display R201). -/
namespace Sys2Proof.Machine

/-- `zext_16` of a 12-bit address (R82). -/
def zext12 (a : Addr12) : Word := a.setWidth 16

/-- `zext_16` of a byte. -/
def zext8 (b : Byte) : Word := b.setWidth 16

/-- The end of a conditional skip (R110, R92): `pc` is `ia + 2`, or `ia + 4` when the condition holds. -/
def skipIf (c : Bool) (s : State) : State := if c then advance (advance s) else advance s

/-- The data address `I + 0`, an unbounded natural (R186). -/
def indexAddr (s : State) : Nat := s.I.toNat

/-- Where the glyph for a value stands (R182, 90_conflicts C4): the low nibble chooses it. -/
def glyphAddr (v : Byte) : Word := 0x050#16 + 5#16 * zext8 (v &&& 0x0F#8)

/-- Hundreds, tens, ones (R183). -/
def bcdDigits (v : Byte) : List Byte :=
  [BitVec.ofNat 8 (v.toNat / 100), BitVec.ofNat 8 (v.toNat / 10 % 10), BitVec.ofNat 8 (v.toNat % 10)]

/-- V0 to Vx, lowest register first (R184). -/
def regBlock (s : State) (x : Reg) : List Byte := s.V.toList.take (x.val + 1)

/-- A block of bytes put into the registers from number `k` upwards; bytes past VF have no register. -/
def setRegsFrom (V : Vector Byte 16) : Nat → List Byte → Vector Byte 16
  | _, [] => V
  | k, b :: bs => if h : k < 16 then setRegsFrom (V.set k b) (k + 1) bs else V

/-- V0, V1, ... from a block of bytes, lowest register first (R185). -/
def loadBlock (bs : List Byte) (s : State) : State := { s with V := setRegsFrom s.V 0 bs }

/-- The key number in Vx, which must be 0 to 15 (R220, R221). -/
def keyNumber (s : State) (x : Reg) : Except FaultCode Nat :=
  if 15 < (readV s x).toNat then .error .keyIndexOutOfRange else .ok (readV s x).toNat

/-- `keys[k]` (R13). -/
def keyDown (s : State) (k : Nat) : Bool := s.keys.getLsbD k

/-- A sprite row placed on a display row (R201): the byte's bit 7 in column `vx`, bit 0 in column `vx + 7`; what falls
past column 63 is clipped. -/
def spriteMask (vx : Nat) (b : Byte) : BitVec 64 := (b.reverse.setWidth 64) <<< vx

/-- One sprite row XORed into row `py`, and whether a lit pixel was turned off so far; rows past 31 are clipped
(R201). -/
def drawRow (vx py : Nat) (b : Byte) (acc : Display × Bool) : Display × Bool :=
  if h : py < 32 then
    (acc.1.set py (acc.1[py] ^^^ spriteMask vx b), acc.2 || (acc.1[py] &&& spriteMask vx b != 0#64))
  else acc

/-- The rows of a sprite drawn from row `py` downwards (R201). -/
def drawRows (vx : Nat) : Nat → List Byte → Display × Bool → Display × Bool
  | _, [], acc => acc
  | py, b :: bs, acc => drawRows vx (py + 1) bs (drawRow vx py b acc)

end Sys2Proof.Machine
end

