-- ==== Sys2Proof/Machine/Alu.lean ====
section
/-! DEFINITION. Register loads and the 8-bit ALU (42_alu). All operands are read from the state at the start of the
cycle, before any write (10_state R33). -/
namespace Sys2Proof.Machine

/-- LD Vx, nn (R141). -/
def execLdImm (x : Reg) (nn : Byte) (s : State) : Result := .next (writeV x nn (advance s))

/-- ADD Vx, nn (R142): no flag. -/
def execAddImm (x : Reg) (nn : Byte) (s : State) : Result := .next (writeV x (readV s x + nn) (advance s))

/-- LD Vx, Vy (R143). -/
def execLdReg (x y : Reg) (s : State) : Result := .next (writeV x (readV s y) (advance s))

/-- OR Vx, Vy (R144): no flag. -/
def execOrReg (x y : Reg) (s : State) : Result := .next (writeV x (readV s x ||| readV s y) (advance s))

/-- AND Vx, Vy (R145): no flag. -/
def execAndReg (x y : Reg) (s : State) : Result := .next (writeV x (readV s x &&& readV s y) (advance s))

/-- XOR Vx, Vy (R146): no flag. -/
def execXorReg (x y : Reg) (s : State) : Result := .next (writeV x (readV s x ^^^ readV s y) (advance s))

/-- ADD Vx, Vy (R147). -/
def execAddReg (x y : Reg) (s : State) : Result :=
  .next (writeResultFlag x (aluAdd (readV s x) (readV s y)) (advance s))

/-- SUB Vx, Vy (R148). -/
def execSubReg (x y : Reg) (s : State) : Result :=
  .next (writeResultFlag x (aluSub (readV s x) (readV s y)) (advance s))

/-- SHR Vx (R149): Vy is never read. -/
def execShr (x : Reg) (s : State) : Result := .next (writeResultFlag x (aluShr (readV s x)) (advance s))

/-- SUBN Vx, Vy (R150). -/
def execSubnReg (x y : Reg) (s : State) : Result :=
  .next (writeResultFlag x (aluSub (readV s y) (readV s x)) (advance s))

/-- SHL Vx (R151): Vy is never read. -/
def execShl (x : Reg) (s : State) : Result := .next (writeResultFlag x (aluShl (readV s x)) (advance s))

/-- The next random byte, a free value, and the state with that draw used up (R152, notes/assumptions/2.md). -/
def drawByte (s : State) : Byte × State := (Config.randomByte s.draws, { s with draws := s.draws + 1 })

/-- RND Vx, nn (R152). -/
def execRnd (x : Reg) (nn : Byte) (s : State) : Result :=
  .next (writeV x ((drawByte s).1 &&& nn) (advance (drawByte s).2))

end Sys2Proof.Machine
end

