-- ==== Sys2Proof/Machine/ControlFlow.lean ====
section
/-! DEFINITION. Control flow (41_control_flow): RET, JP, CALL, the conditional skips, JP V0. Every meaning is given the
state at the start of the cycle, whose `pc` is `ia`, and makes the advance of 30_encoding R92 itself
(notes/assumptions/7.md). -/
namespace Sys2Proof.Machine

/-- Pop: the slot below `sp`, which keeps its value (10_state R37). -/
def popStack (s : State) : Except FaultCode (Word × State) :=
  if h : s.sp.val = 0 then .error .stackUnderflow
  else .ok (s.stack[s.sp.val - 1]'(by omega), { s with sp := ⟨s.sp.val - 1, by omega⟩ })

/-- Push: slot `sp`, then `sp + 1` (10_state R37). -/
def pushStack (a : Word) (s : State) : Except FaultCode State :=
  if h : s.sp.val < 16 then .ok { s with stack := s.stack.set s.sp.val a, sp := ⟨s.sp.val + 1, by omega⟩ }
  else .error .stackOverflow

/-- RET (R111). -/
def execRet (s : State) : Result :=
  complete s (match popStack s with
    | .error c => .error c
    | .ok (a, t) => .ok (setPc a t))

/-- JP nnn (R112). -/
def execJp (nnn : Addr12) (s : State) : Result := .next (setPc (zext12 nnn) s)

/-- CALL nnn (R113): the return address is `ia + 2`. -/
def execCall (nnn : Addr12) (s : State) : Result :=
  complete s (match pushStack (advance s).pc s with
    | .error c => .error c
    | .ok t => .ok (setPc (zext12 nnn) t))

/-- SE Vx, nn (R114). -/
def execSeImm (x : Reg) (nn : Byte) (s : State) : Result := .next (skipIf (readV s x == nn) s)

/-- SNE Vx, nn (R115). -/
def execSneImm (x : Reg) (nn : Byte) (s : State) : Result := .next (skipIf (readV s x != nn) s)

/-- SE Vx, Vy (R116). -/
def execSeReg (x y : Reg) (s : State) : Result := .next (skipIf (readV s x == readV s y) s)

/-- SNE Vx, Vy (R117). -/
def execSneReg (x y : Reg) (s : State) : Result := .next (skipIf (readV s x != readV s y) s)

/-- JP V0, nnn (R118): the 12-bit base, then V0 added, with no mask after the add. -/
def execJpV0 (nnn : Addr12) (s : State) : Result := .next (setPc (zext12 nnn + zext8 (readV s 0)) s)

end Sys2Proof.Machine
end

