-- ==== Sys2Proof/Machine/Display.lean ====
section
/-! DEFINITION. The display family (44_display): CLS and DRW. -/
namespace Sys2Proof.Machine

/-- The blank buffer. -/
def blankDisplay : Display := Vector.replicate 32 0

/-- CLS (R200). -/
def execCls (s : State) : Result := .next (advance { s with disp := blankDisplay })

/-- The buffer and the collision flag after drawing sprite rows at the position in Vx and Vy (R201); the start
position is not reduced (D11). -/
def drawSprite (vx vy : Nat) (rows : List Byte) (d : Display) : Display × Bool := drawRows vx vy rows (d, false)

/-- A drawn buffer and its collision flag put into the state, the flag last (R201, R33). -/
def showDrawn (r : Display × Bool) (s : State) : State := writeFlag r.2 { s with disp := r.1 }

/-- DRW Vx, Vy, n (R201): all rows are read before a pixel is written. -/
def execDrw (x y : Reg) (n : Nibble) (s : State) : Result :=
  complete s (match readBytes s (indexAddr s) n.toNat with
    | .error c => .error c
    | .ok rows =>
      .ok (showDrawn (drawSprite (readV s x).toNat (readV s y).toNat rows s.disp) (advance s)))

end Sys2Proof.Machine
end

