-- ==== Sys2Proof/Machine/IndexMemory.lean ====
section
/-! DEFINITION. The index register and memory transfers (43_index_memory). `I` is changed by Annn, Fx1E and Fx29
alone. -/
namespace Sys2Proof.Machine

/-- LD I, nnn (R180). -/
def execLdI (nnn : Addr12) (s : State) : Result := .next (setI (zext12 nnn) (advance s))

/-- ADD I, Vx (R181): mod 65536, no flag (D9). -/
def execAddI (x : Reg) (s : State) : Result := .next (setI (s.I + zext8 (readV s x)) (advance s))

/-- LD F, Vx (R182). -/
def execLdF (x : Reg) (s : State) : Result := .next (setI (glyphAddr (readV s x)) (advance s))

/-- LD B, Vx (R183). -/
def execLdB (x : Reg) (s : State) : Result :=
  complete s (writeBytes (indexAddr s) (bcdDigits (readV s x)) (advance s))

/-- LD [I], Vx (R184). -/
def execDump (x : Reg) (s : State) : Result :=
  complete s (writeBytes (indexAddr s) (regBlock s x) (advance s))

/-- LD Vx, [I] (R185). -/
def execLoad (x : Reg) (s : State) : Result :=
  complete s (match readBytes s (indexAddr s) (x.val + 1) with
    | .error c => .error c
    | .ok bs => .ok (loadBlock bs (advance s)))

end Sys2Proof.Machine
end

