-- ==== Sys2Proof/Machine/KeysTimers.lean ====
section
/-! DEFINITION. Keypad, wait-for-key and timer instructions, and the waiting step (45_keys_timers). -/
namespace Sys2Proof.Machine

/-- SKP Vx (R220). -/
def execSkp (x : Reg) (s : State) : Result :=
  complete s (match keyNumber s x with
    | .error c => .error c
    | .ok k => .ok (skipIf (keyDown s k) s))

/-- SKNP Vx (R221). -/
def execSknp (x : Reg) (s : State) : Result :=
  complete s (match keyNumber s x with
    | .error c => .error c
    | .ok k => .ok (skipIf (!keyDown s k) s))

/-- LD Vx, DT (R222). -/
def execLdVxDT (x : Reg) (s : State) : Result := .next (writeV x s.DT (advance s))

/-- LD Vx, K (R223): the wait begins; Vx is written later, by the waiting step. -/
def execLdVxK (x : Reg) (s : State) : Result := .next (advance { s with wait := some x, keyPrev := s.keys })

/-- LD DT, Vx (R225). -/
def execLdDTVx (x : Reg) (s : State) : Result := .next (advance { s with DT := readV s x })

/-- LD ST, Vx (R226). -/
def execLdSTVx (x : Reg) (s : State) : Result := .next (advance { s with ST := readV s x })

/-- Whether key `k` is newly pressed: down now and up at the last sample (R224). -/
def newlyPressed (s : State) (k : Nat) : Bool := s.keys.getLsbD k && !s.keyPrev.getLsbD k

/-- The lowest newly pressed key, if there is one (R224). -/
def lowestNewKey (s : State) : Option Nat := (List.range 16).find? (newlyPressed s)

/-- `WaitStep(x)` (R224): sample the keys, and end the wait if one is newly pressed. -/
def waitStep (x : Reg) (s : State) : State :=
  match lowestNewKey s with
  | some k => writeV x (BitVec.ofNat 8 k) { s with keyPrev := s.keys, wait := none }
  | none => { s with keyPrev := s.keys }

end Sys2Proof.Machine
end

