-- ==== Sys2Proof/Machine/Fetch.lean ====
section
/-! DEFINITION. Instruction fetch (20_memory R64 to R66, R71) and decode as the cycle uses it (30_encoding R86, R91). -/
namespace Sys2Proof.Machine

/-- `FetchWord(a)`: two bytes, big-endian (R64). -/
def fetchWord (s : State) (a : Nat) : Word := joinBytes (readByte s a) (readByte s (a + 1))

/-- The fetch at `pc` with its checks, bounds before alignment (R65, R66, R304). -/
def fetch (s : State) : Except FaultCode Word :=
  if 0xFFE < s.pc.toNat then .error .fetchOutOfRange
  else if s.pc.toNat % 2 = 1 then .error .misalignedFetch
  else .ok (fetchWord s s.pc.toNat)

/-- Fetch, then decode: the instruction of this cycle, or the fault (R91, R304). -/
def fetchInstr (s : State) : Except FaultCode Instr :=
  match fetch s with
  | .error c => .error c
  | .ok w =>
    match decode s.config.strict59 w with
    | .ok i => .ok i
    | .error _ => .error .illegalOpcode

/-- A word stored at an address as memory holds it (R64), outside any instruction. -/
def placeWord (a : Nat) (w : Word) (s : State) : State :=
  { s with mem := memSetRun s.config.font s.mem a (storedBytes w) }

/-- The state made ready to fetch, for the host's probe: a `Cycle` comes next, the core is neither halted nor waiting,
and `pc` passes the fetch checks, 0x200 if it did not (notes/assumptions/9.md). -/
def readyToFetch (s : State) : State :=
  { s with
    host := []
    wait := none
    halted := false
    faultCode := if s.halted then .none else s.faultCode
    faultPc := if s.halted then 0 else s.faultPc
    pc := if 0xFFE < s.pc.toNat ∨ s.pc.toNat % 2 = 1 then 0x200 else s.pc }

end Sys2Proof.Machine
end

