-- ==== Sys2Proof/Machine/HostOps.lean ====
section
/-! DEFINITION. The host's operations other than Cycle: Reset and Load (70_reset R340, R341), Tick and SetKeys
(45_keys_timers R227, R228). -/
namespace Sys2Proof.Machine

/-- `Reset()` (R340). It gives every element of R45 its reset value and admits a `Load` again. The parameters, the
host's remaining operations and the count of random draws are not state of the core and stay
(notes/assumptions/3.md, 4.md). -/
def hostReset (s : State) : State :=
  { State.reset with config := s.config, host := s.host, draws := s.draws }

/-- The first address a program is loaded to (20_memory R70). -/
def loadBase : Nat := 0x200

/-- The largest program, 4096 - 512 bytes (00_scope R6). -/
def maxRom : Nat := 3584

/-- `Load(rom)` (R341), admitted once, after Reset and before the first Cycle; any other is refused (D21, S7). -/
def hostLoad (rom : List Byte) (s : State) : Result :=
  if !s.loadOpen || s.halted then .refused .loadNotAdmitted
  else if maxRom < rom.length then .next (raise .romTooLarge { s with loadOpen := false })
  else .next { s with loadOpen := false, mem := memSetRun s.config.font s.mem loadBase rom }

/-- `SetKeys(k)` (R228): it works even when halted. -/
def hostSetKeys (k : Word) (s : State) : State := { s with keys := k }

/-- A timer's value after one tick: never below zero (R227). -/
def countDown (t : Byte) : Byte := if t = 0 then 0 else t - 1

/-- `Tick()` (R227). -/
def hostTick (s : State) : State :=
  if s.halted then s else { s with DT := countDown s.DT, ST := countDown s.ST }

end Sys2Proof.Machine
end

