-- ==== Sys2Proof/Machine/Cycle.lean ====
section
/-! DEFINITION. One cycle (30_encoding R91) and one host operation (70_reset R343). -/
namespace Sys2Proof.Machine

/-- What the first Cycle does to the model's own bookkeeping: no `Load` is admitted after it (70_reset R341). -/
def beginCycle (s : State) : State := { s with loadOpen := false }

/-- `Cycle()` (R91), with the order of checks of 60_exceptions R304: halted, waiting, the fetch faults, an illegal
opcode, then the instruction. -/
def cycle (s : State) : Result :=
  if s.halted then .next s
  else
    match s.wait with
    | some x => .next (waitStep x (beginCycle s))
    | none =>
      match fetchInstr (beginCycle s) with
      | .error c => .next (raise c (beginCycle s))
      | .ok i => exec i (beginCycle s)

/-- One host operation, atomic (R343). -/
def perform (op : HostOp) (s : State) : Result :=
  match op with
  | .reset => .next (hostReset s)
  | .load rom => hostLoad rom s
  | .setKeys k => .next (hostSetKeys k s)
  | .cycle => cycle s
  | .tick => .next (hostTick s)

/-- The host's next operation and the state in which it is performed: the oldest operation listed, or a `Cycle` when
none is (70_reset R344, notes/assumptions/4.md). -/
def nextOp (s : State) : HostOp × State :=
  match s.host with
  | [] => (.cycle, s)
  | op :: rest => (op, { s with host := rest })

end Sys2Proof.Machine
end

