-- ==== Sys2Proof/Machine/Step.lean ====
section
/-! DEFINITION. The step of the machine: the host's next operation performed (70_reset R343, R344). -/
namespace Sys2Proof.Machine

/-- One step: the oldest host operation listed in the state, or a `Cycle` when none is listed. -/
def step (s : State) : Host.Outcome State Fault Refusal := perform (nextOp s).1 (nextOp s).2

/-- The host's probe: the state with the instruction word whose bits are `w` stored where the next step fetches it,
and made ready to fetch it (notes/assumptions/8.md, 9.md). -/
def State.withFetchWord (s : State) (nbits w : Nat) : State :=
  placeWord (readyToFetch s).pc.toNat (BitVec.ofNat 16 (w % 2 ^ nbits)) (readyToFetch s)

end Sys2Proof.Machine
end

