-- ==== Sys2Proof/Machine/Outputs.lean ====
section
/-! DEFINITION. What the host may read between operations (10_state R46, 45_keys_timers R229, 44_display R202). -/
namespace Sys2Proof.Machine

/-- The read-only views of R46. -/
structure Outputs where
  disp : Display
  soundOn : Bool
  halted : Bool
  faultCode : Nat
  faultPc : Word
  waiting : Bool
  deriving DecidableEq, Repr

/-- `sound_on = (ST != 0)` (R229). -/
def soundOn (s : State) : Bool := s.ST != 0

/-- `waiting = (wait != none)` (R46). -/
def waiting (s : State) : Bool := s.wait.isSome

/-- The outputs of a state (R46). -/
def outputs (s : State) : Outputs :=
  { disp := s.disp, soundOn := soundOn s, halted := s.halted, faultCode := faultNumber s.faultCode
    faultPc := s.faultPc, waiting := waiting s }

end Sys2Proof.Machine
end

