-- ==== Sys2Proof/Safety.lean ====
section
/-! DEFINITION. What a safe run means in the terms claims use: the invariants of the machine (20_memory R63, R70;
10_state R36, R43; 60_exceptions R302, R304) and the frames of an instruction. -/
namespace Sys2Proof.Machine

/-- Memory is in canonical form. -/
def MemCanonical (s : State) : Prop := Memory.wf s.config.font s.mem = true

/-- The reserved range 0x000..0x1FF holds its reset contents, the font among them (20_memory R63, R70). -/
def ReservedIntact (s : State) : Prop := ∀ a, a < 0x200 → readByte s a = resetByte s.config.font a

/-- The fault status is consistent (10_state R43, 60_exceptions R302, R304): halted exactly when a fault is recorded,
a halted core is not waiting, and a halted or waiting core admits no `Load`. -/
def StatusConsistent (s : State) : Prop :=
  (s.halted = true ↔ s.faultCode ≠ .none) ∧ (s.halted = true → s.wait = none) ∧
    (s.halted = true → s.loadOpen = false) ∧ (s.wait ≠ none → s.loadOpen = false)

/-- `pc` and `fault_pc` stay at or below 0x10FE, and every stack slot at or below 0x1000 (10_state R36). -/
def PcBounded (s : State) : Prop :=
  s.pc.toNat ≤ 0x10FE ∧ s.faultPc.toNat ≤ 0x10FE ∧ ∀ k : Fin 16, s.stack[k].toNat ≤ 0x1000

/-- A run that has not faulted. -/
def Unfaulted (s : State) : Prop := s.halted = false

/-! ### Frames -/

/-- Every byte of memory reads as before. -/
def SameBytes (s t : State) : Prop := ∀ a, readByte t a = readByte s a

/-- Every byte of memory outside `n` bytes at `a` reads as before. -/
def SameBytesBut (a n : Nat) (s t : State) : Prop := ∀ b, b < a ∨ a + n ≤ b → readByte t b = readByte s b

/-- Every general register reads as before. -/
def SameRegs (s t : State) : Prop := ∀ r, readV t r = readV s r

/-- Every general register but `x` reads as before. -/
def SameRegsBut (x : Reg) (s t : State) : Prop := ∀ r, r ≠ x → readV t r = readV s r

/-- Every general register but `x` and VF reads as before. -/
def SameRegsButFlag (x : Reg) (s t : State) : Prop := ∀ r, r ≠ x → r ≠ flagReg → readV t r = readV s r

/-- The stack slots and `sp` are unchanged. -/
def SameStack (s t : State) : Prop := t.stack = s.stack ∧ t.sp = s.sp

/-- Both timers are unchanged. -/
def SameTimers (s t : State) : Prop := t.DT = s.DT ∧ t.ST = s.ST

/-- The wait state and its key sample are unchanged. -/
def SameWait (s t : State) : Prop := t.wait = s.wait ∧ t.keyPrev = s.keyPrev

/-- The fault status is unchanged. -/
def SameStatus (s t : State) : Prop := t.halted = s.halted ∧ t.faultCode = s.faultCode ∧ t.faultPc = s.faultPc

/-- What no instruction changes: the keypad, the parameters, the host's remaining operations and whether a `Load` is
admitted. -/
def SameOutside (s t : State) : Prop :=
  t.keys = s.keys ∧ t.config = s.config ∧ t.host = s.host ∧ t.loadOpen = s.loadOpen

/-- Everything but memory, the general registers and `pc` is unchanged: `I`, stack, timers, display, wait, status,
draws and the outside. -/
def SameRest (s t : State) : Prop :=
  t.I = s.I ∧ SameStack s t ∧ SameTimers s t ∧ t.disp = s.disp ∧ SameWait s t ∧ SameStatus s t ∧
    t.draws = s.draws ∧ SameOutside s t

end Sys2Proof.Machine
end

