-- ==== Sys2Proof/Certificates/Slice0/Obligations.lean ====
section
/-! DEFINITION. The statements for the provers, one per rule or group of rules of the spec. A statement about an
instruction is about `exec i s`, where `s` is the state at the start of the cycle and `s.pc` is the instruction's own
address. -/

open Sys2Proof Sys2Proof.Machine

/-! ### Words the statements use -/

namespace Sys2Proof.Claims

/-- The word whose number is `w` decodes to `i` under both values of STRICT_5_9, and `i` has op id `id` (R85: the ids
are the spec's decision D2, the patterns but 6xnn its general knowledge G1, notes/assumptions/15.md). -/
def DecodesAs (w : Nat) (i : Instr) (id : Nat) : Prop :=
  (∀ strict, decode strict (BitVec.ofNat 16 w) = .ok i) ∧ opId i = id

/-- The number of the word `o x nn` (R83). -/
def numXB (op : Nat) (x : Reg) (nn : Byte) : Nat := 0x1000 * op + 0x100 * x.val + nn.toNat

/-- The number of the word `o x y n` (R83). -/
def numXYN (op : Nat) (x y : Reg) (n : Nat) : Nat := 0x1000 * op + 0x100 * x.val + 0x10 * y.val + n

/-- The number of the word `o nnn` (R83). -/
def numA (op : Nat) (nnn : Addr12) : Nat := 0x1000 * op + nnn.toNat

/-- The host's next operation is `op`, and `s0` is the state it is performed in: `s` with `op` off the front of its
host list, or `s` itself when that list is empty and `op` is a `Cycle`. -/
def Next (op : HostOp) (s s0 : State) : Prop :=
  (s.host = [] ∧ op = .cycle ∧ s0 = s) ∨ ∃ rest, s.host = op :: rest ∧ s0 = { s with host := rest }

/-- The core will fetch: it is neither halted nor waiting. -/
def Running (s : State) : Prop := s.halted = false ∧ s.wait = none

/-- `w` is the word at `pc`, as a number: the byte at `pc` is its high byte and the next one its low byte (20_memory R64,
90_conflicts C1). -/
def WordAtPc (s : State) (w : Word) : Prop :=
  w.toNat = 0x100 * (readByte s s.pc.toNat).toNat + (readByte s (s.pc.toNat + 1)).toNat

/-- What the fault `c` leaves: the state at the start of the cycle, halted, with the code and the fetched `pc`. -/
def faulted (c : FaultCode) (s : State) : State := { s with halted := true, faultCode := c, faultPc := s.pc }

/-- The bit of the sprite `I, n` at `(vx, vy)` on the pixel in row `r` and column `c` (R201): bit `7 - (c - vx)` of
byte `r - vy` of the sprite, when the pixel lies under the sprite. -/
def spriteBit (s : State) (vx vy n r c : Nat) : Bool :=
  decide (vy ≤ r ∧ r < vy + n ∧ vx ≤ c ∧ c < vx + 8) && (readByte s (s.I.toNat + (r - vy))).getLsbD (7 - (c - vx))

/-- Which general registers an instruction may write (R32, R33 and each rule). -/
def mayWrite : Instr → Reg → Bool
  | .ldImm x _, r | .addImm x _, r | .ldReg x _, r | .orReg x _, r | .andReg x _, r | .xorReg x _, r | .rnd x _, r
  | .ldVxDT x, r => r == x
  | .addReg x _, r | .subReg x _, r | .shr x _, r | .subnReg x _, r | .shl x _, r => r == x || r == flagReg
  | .drw _ _ _, r => r == flagReg
  | .load x, r => decide (r ≤ x)
  | _, _ => false

/-- Which faults an instruction's own checks may raise (60_exceptions R300, R304). -/
def mayRaise : Instr → List FaultCode
  | .ret => [.stackUnderflow]
  | .call _ => [.stackOverflow]
  | .skp _ | .sknp _ => [.keyIndexOutOfRange]
  | .drw _ _ _ | .load _ => [.dataOutOfRange]
  | .ldB _ | .dump _ => [.dataOutOfRange, .reservedWrite]
  | _ => []

/-- The next `pc` the program-counter mux of 30_encoding R93 allows an instruction that does not fault. -/
def MuxAllows (i : Instr) (s : State) (pc : Word) : Prop :=
  match i with
  | .jp nnn => pc.toNat = nnn.toNat
  | .call nnn => pc.toNat = nnn.toNat
  | .jpV0 nnn => pc.toNat = nnn.toNat + (readV s 0).toNat
  | .ret => ∃ k : Fin 16, k.val + 1 = s.sp.val ∧ pc = s.stack[k]
  | .seImm x nn => pc = if readV s x = nn then s.pc + 4 else s.pc + 2
  | .sneImm x nn => pc = if readV s x = nn then s.pc + 2 else s.pc + 4
  | .seReg x y _ => pc = if readV s x = readV s y then s.pc + 4 else s.pc + 2
  | .sneReg x y _ => pc = if readV s x = readV s y then s.pc + 2 else s.pc + 4
  | .skp x => pc = if s.keys.getLsbD (readV s x).toNat = true then s.pc + 4 else s.pc + 2
  | .sknp x => pc = if s.keys.getLsbD (readV s x).toNat = true then s.pc + 2 else s.pc + 4
  | _ => pc = s.pc + 2

/-- The host lists no operation that could clear a fault or is refused. -/
def NoResetNoLoad (ops : List HostOp) : Prop := ∀ op ∈ ops, op = .cycle ∨ op = .tick ∨ ∃ k, op = .setKeys k

end Sys2Proof.Claims

open Sys2Proof.Claims

/-! ### Encoding -/

/-- A few words written out from the spec's encodings decode to the instructions they stand for: 95_test_vectors W5,
W6, W8 and the examples of R113, R201, R220, R182. -/
def Obligations.SpecWordsDecode : Prop :=
  decode true 0x6005#16 = .ok (.ldImm 0 0x05#8) ∧ decode true 0x8106#16 = .ok (.shr 1 0) ∧
  decode true 0x810E#16 = .ok (.shl 1 0) ∧ decode true 0xF233#16 = .ok (.ldB 2) ∧
  decode true 0x2210#16 = .ok (.call 0x210#12) ∧ decode true 0xD015#16 = .ok (.drw 0 1 5#4) ∧
  decode true 0xE49E#16 = .ok (.skp 4) ∧ decode true 0xF129#16 = .ok (.ldF 1) ∧
  decode true 0x00EE#16 = .ok .ret ∧ decode true 0x5121#16 = .error (.illegal 0x5121#16) ∧
  decode false 0x5121#16 = .ok (.seReg 1 2 1#4) ∧ decode true 0x01E0#16 = .error (.illegal 0x01E0#16)

/-- Every pattern of the opcode map R85, written as a number from its fields, decodes to its instruction with its op
id, whatever the operands. -/
def Obligations.PatternsDecode : Prop :=
  ∀ (x y : Reg) (n : Nibble) (nn : Byte) (nnn : Addr12),
    DecodesAs 0x00E0 .cls 0 ∧ DecodesAs 0x00EE .ret 1 ∧ DecodesAs (numA 0x1 nnn) (.jp nnn) 2 ∧
    DecodesAs (numA 0x2 nnn) (.call nnn) 3 ∧ DecodesAs (numXB 0x3 x nn) (.seImm x nn) 4 ∧
    DecodesAs (numXB 0x4 x nn) (.sneImm x nn) 5 ∧ DecodesAs (numXYN 0x5 x y 0) (.seReg x y 0#4) 6 ∧
    DecodesAs (numXB 0x6 x nn) (.ldImm x nn) 7 ∧ DecodesAs (numXB 0x7 x nn) (.addImm x nn) 8 ∧
    DecodesAs (numXYN 0x8 x y 0x0) (.ldReg x y) 9 ∧ DecodesAs (numXYN 0x8 x y 0x1) (.orReg x y) 10 ∧
    DecodesAs (numXYN 0x8 x y 0x2) (.andReg x y) 11 ∧ DecodesAs (numXYN 0x8 x y 0x3) (.xorReg x y) 12 ∧
    DecodesAs (numXYN 0x8 x y 0x4) (.addReg x y) 13 ∧ DecodesAs (numXYN 0x8 x y 0x5) (.subReg x y) 14 ∧
    DecodesAs (numXYN 0x8 x y 0x6) (.shr x y) 15 ∧ DecodesAs (numXYN 0x8 x y 0x7) (.subnReg x y) 16 ∧
    DecodesAs (numXYN 0x8 x y 0xE) (.shl x y) 17 ∧ DecodesAs (numXYN 0x9 x y 0) (.sneReg x y 0#4) 18 ∧
    DecodesAs (numA 0xA nnn) (.ldI nnn) 19 ∧ DecodesAs (numA 0xB nnn) (.jpV0 nnn) 20 ∧
    DecodesAs (numXB 0xC x nn) (.rnd x nn) 21 ∧ DecodesAs (numXYN 0xD x y n.toNat) (.drw x y n) 22 ∧
    DecodesAs (numXB 0xE x 0x9E#8) (.skp x) 23 ∧ DecodesAs (numXB 0xE x 0xA1#8) (.sknp x) 24 ∧
    DecodesAs (numXB 0xF x 0x07#8) (.ldVxDT x) 25 ∧ DecodesAs (numXB 0xF x 0x0A#8) (.ldVxK x) 26 ∧
    DecodesAs (numXB 0xF x 0x15#8) (.ldDTVx x) 27 ∧ DecodesAs (numXB 0xF x 0x18#8) (.ldSTVx x) 28 ∧
    DecodesAs (numXB 0xF x 0x1E#8) (.addI x) 29 ∧ DecodesAs (numXB 0xF x 0x29#8) (.ldF x) 30 ∧
    DecodesAs (numXB 0xF x 0x33#8) (.ldB x) 31 ∧ DecodesAs (numXB 0xF x 0x55#8) (.dump x) 32 ∧
    DecodesAs (numXB 0xF x 0x65#8) (.load x) 33 ∧
    decode false (BitVec.ofNat 16 (numXYN 0x5 x y n.toNat)) = .ok (.seReg x y n) ∧
    decode false (BitVec.ofNat 16 (numXYN 0x9 x y n.toNat)) = .ok (.sneReg x y n)

/-- Decoding the word of a well-formed instruction gives that instruction, with every operand. -/
def Obligations.DecodeEncodeRoundTrip : Prop :=
  ∀ (strict : Bool) (i : Instr), i.wf strict = true → decode strict (encode i) = .ok i

/-- A decoded instruction is well formed and determines its word: no two words decode to one instruction. For the bits a
legal instruction ignores (`y` of the shifts, `n` of the register skips under STRICT_5_9 = false) this is the model's
choice: Instr keeps them as operands (notes/assumptions/12.md). -/
def Obligations.DecodeDeterminesWord : Prop :=
  ∀ (strict : Bool) (w : Word) (i : Instr), decode strict w = .ok i → encode i = w ∧ i.wf strict = true

/-- The decoder is total and follows the opcode map: its op id is that of the first row of R85 that matches, or ILLEGAL,
with the fields of R81; and a cycle that fetches an ILLEGAL word, high byte first, raises IllegalOpcode. The ids are the spec's decision
D2, the code's number D15, what the fault leaves D14. -/
def Obligations.DecodeFollowsOpcodeMap : Prop :=
  (∀ (strict : Bool) (w : Word),
    (decoderOutput strict w).id = opcodeMapId strict w ∧
    (decoderOutput strict w).x.val = w.toNat / 0x100 % 16 ∧ (decoderOutput strict w).y.val = w.toNat / 0x10 % 16 ∧
    (decoderOutput strict w).n.toNat = w.toNat % 16 ∧ (decoderOutput strict w).nn.toNat = w.toNat % 0x100 ∧
    (decoderOutput strict w).nnn.toNat = w.toNat % 0x1000) ∧
  (∀ (s s0 : State) (w : Word), Next .cycle s s0 → Running s0 → s0.pc.toNat ≤ 0xFFE → s0.pc.toNat % 2 = 0 →
    WordAtPc s0 w → opcodeMapId s0.config.strict59 w = 63 →
    step s = .next (faulted .illegalOpcode { s0 with loadOpen := false })) ∧
  faultNumber .illegalOpcode = 5

/-- Under STRICT_5_9 = true no word matches two rows of the opcode map. -/
def Obligations.OpcodeRowsDisjoint : Prop :=
  ∀ (w : Word) (r q : OpcodeRow), r ∈ opcodeMap true → q ∈ opcodeMap true → rowMatches w r = true →
    rowMatches w q = true → r = q

/-- The illegal words are exactly those of the table of 30_encoding section 3, family by family. -/
def Obligations.IllegalWordsAreTheListedOnes : Prop :=
  ∀ (strict : Bool) (w : Word), decode strict w = .error (.illegal w) ↔
    (w.toNat / 0x1000 = 0x0 ∧ w.toNat ≠ 0x00E0 ∧ w.toNat ≠ 0x00EE) ∨
    (w.toNat / 0x1000 = 0x5 ∧ strict = true ∧ w.toNat % 16 ≠ 0) ∨
    (w.toNat / 0x1000 = 0x8 ∧ w.toNat % 16 ∈ [0x8, 0x9, 0xA, 0xB, 0xC, 0xD, 0xF]) ∨
    (w.toNat / 0x1000 = 0x9 ∧ strict = true ∧ w.toNat % 16 ≠ 0) ∨
    (w.toNat / 0x1000 = 0xE ∧ w.toNat % 0x100 ∉ [0x9E, 0xA1]) ∨
    (w.toNat / 0x1000 = 0xF ∧ w.toNat % 0x100 ∉ [0x07, 0x0A, 0x15, 0x18, 0x1E, 0x29, 0x33, 0x55, 0x65])

/-! ### The cycle and the host's operations -/

/-- When the word at `pc`, its high byte first, decodes to `i`, a step that performs a `Cycle` is `exec i`, on the state with the
host's list advanced and the model's own mark that a `Load` is no longer admitted (notes/assumptions/4.md, 5.md). -/
def Obligations.StepRunsDecodedInstruction : Prop :=
  ∀ (s s0 : State) (w : Word) (i : Instr), Next .cycle s s0 → Running s0 → s0.pc.toNat ≤ 0xFFE →
    s0.pc.toNat % 2 = 0 → WordAtPc s0 w → decode s0.config.strict59 w = .ok i →
    step s = exec i { s0 with loadOpen := false }

/-- The two fetch faults, bounds before alignment. That they are taken at all at an odd pc is the spec's decision D6, what
a fault leaves is D14, the order is D29. -/
def Obligations.FetchFaultsInOrder : Prop :=
  ∀ s s0 : State, Next .cycle s s0 → Running s0 →
    (0xFFE < s0.pc.toNat → step s = .next (faulted .fetchOutOfRange { s0 with loadOpen := false })) ∧
    (s0.pc.toNat ≤ 0xFFE → s0.pc.toNat % 2 = 1 →
      step s = .next (faulted .misalignedFetch { s0 with loadOpen := false }))

/-- Once halted, `Cycle` and `Tick` change nothing, `SetKeys` writes the keys alone, `Load` is refused (the model's
reading, notes/assumptions/5.md), and `Reset` clears the fault (the spec's decision D14). -/
def Obligations.HaltedCoreIsFrozen : Prop :=
  ∀ s s0 : State, s0.halted = true →
    (Next .cycle s s0 → step s = .next s0) ∧ (Next .tick s s0 → step s = .next s0) ∧
    (∀ k, Next (.setKeys k) s s0 → step s = .next { s0 with keys := k }) ∧
    (∀ rom, Next (.load rom) s s0 → step s = .refused .loadNotAdmitted) ∧
    (Next .reset s s0 → ∃ t, step s = .next t ∧ t.halted = false ∧ t.faultCode = .none ∧ t.faultPc = 0)

/-- A halted core stays halted, with the first fault and all its state but the keys, through any number of steps,
until the host resets it (the spec's decision D14). -/
def Obligations.HaltedForeverWithoutReset : Prop :=
  ∀ (k : Nat) (s : State), s.halted = true → NoResetNoLoad s.host →
    ∃ t, Host.Core.run Sys2Proof.core k s = .next t ∧ t = { s with keys := t.keys, host := s.host.drop k }

/-- The waiting step: the lowest newly pressed key ends the wait and goes to Vx; with no newly pressed key the wait goes
on; the keys are sampled either way, nothing is fetched and `pc` does not move. Which key wins and what "newly" is
measured against are the spec's decision D13. -/
def Obligations.WaitingStepTakesLowestNewKey : Prop :=
  ∀ (s s0 : State) (x : Reg), Next .cycle s s0 → s0.halted = false → s0.wait = some x →
    ∃ t, step s = .next t ∧
      (∀ k, k < 16 → (s0.keys.getLsbD k = true ∧ s0.keyPrev.getLsbD k = false) →
        (∀ j, j < k → ¬ (s0.keys.getLsbD j = true ∧ s0.keyPrev.getLsbD j = false)) →
        t.wait = none ∧ (readV t x).toNat = k) ∧
      ((∀ k, k < 16 → ¬ (s0.keys.getLsbD k = true ∧ s0.keyPrev.getLsbD k = false)) →
        t.wait = some x ∧ readV t x = readV s0 x) ∧
      t.keyPrev = s0.keys ∧ t.pc = s0.pc ∧ SameRegsBut x s0 t ∧ SameBytes s0 t ∧ t.I = s0.I ∧ SameStack s0 t ∧
      SameTimers s0 t ∧ t.disp = s0.disp ∧ SameStatus s0 t ∧ t.draws = s0.draws ∧ t.keys = s0.keys ∧
      t.config = s0.config ∧ t.host = s0.host

/-- A tick takes one off each timer that is above zero and changes nothing else; a halted core ignores it (the spec's
decisions D14, D24). -/
def Obligations.TickCountsTimersDown : Prop :=
  ∀ s s0 : State, Next .tick s s0 →
    (s0.halted = true → step s = .next s0) ∧
    (s0.halted = false → ∃ t, step s = .next t ∧ t = { s0 with DT := t.DT, ST := t.ST } ∧
      t.DT.toNat = s0.DT.toNat - 1 ∧ t.ST.toNat = s0.ST.toNat - 1)

/-- `SetKeys` writes the keypad and nothing else, halted or waiting or not (the spec's decision D17). -/
def Obligations.SetKeysWritesOnlyKeys : Prop :=
  ∀ (s s0 : State) (k : Word), Next (.setKeys k) s s0 → step s = .next { s0 with keys := k }

/-- `Reset` gives every element its reset value from any state, with FONT at 0x050..0x09F and every other byte 0;
State.reset is such a state; and only `Reset` leads out of the halted state. The values of the spec's own state (the
sampled keys, the fault status) are its decision D26, the halt its decision D14; that one `Load` is admitted after it is
D21, held in the model's own field (notes/assumptions/5.md). -/
def Obligations.ResetGivesTheResetState : Prop :=
  (∀ s t : State, s.halted = true → step s = .next t → t.halted = false → ∃ rest, s.host = .reset :: rest) ∧
  ∀ s s0 : State, Next .reset s s0 → ∃ t, step s = .next t ∧
    (∀ u, (u = t ∨ u = State.reset) →
      (∀ r, readV u r = 0) ∧ u.I = 0 ∧ u.pc = 0x200 ∧ (∀ k : Fin 16, u.stack[k] = 0) ∧ u.sp = 0 ∧ u.DT = 0 ∧ u.ST = 0 ∧
      (∀ r c, pixel u.disp r c = false) ∧ u.keys = 0 ∧ u.keyPrev = 0 ∧ u.wait = none ∧ u.halted = false ∧
      faultNumber u.faultCode = 0 ∧ u.faultPc = 0 ∧
      (∀ k : Fin 80, readByte u (0x050 + k.val) = u.config.font[k]) ∧
      (∀ a, a < 0x050 ∨ 0x0A0 ≤ a → readByte u a = 0) ∧ u.loadOpen = true) ∧
    t.config = s0.config ∧ t.host = s0.host

/-- `Load`: the bytes of an admitted ROM of at most 3584 bytes stand at 0x200 upwards and nothing else of the core
changes; a longer one halts the core with code 9 and leaves memory alone; one that is not admitted is refused. That only
one `Load` is admitted is the spec's decision D21, the code's number D15, what the fault leaves D14; which `Load` counts
as admitted is the model's field (notes/assumptions/5.md). -/
def Obligations.LoadPlacesProgram : Prop :=
  faultNumber .romTooLarge = 9 ∧
  ∀ (s s0 : State) (rom : List Byte), Next (.load rom) s s0 →
    (s0.loadOpen = true → s0.halted = false → rom.length ≤ 3584 → MemCanonical s0 →
      ∃ t, step s = .next t ∧ (∀ k (h : k < rom.length), readByte t (0x200 + k) = rom[k]) ∧
        SameBytesBut 0x200 rom.length s0 t ∧ t = { s0 with mem := t.mem, loadOpen := false }) ∧
    (s0.loadOpen = true → s0.halted = false → 3584 < rom.length →
      step s = .next (faulted .romTooLarge { s0 with loadOpen := false })) ∧
    (s0.loadOpen = false ∨ s0.halted = true → step s = .refused .loadNotAdmitted)

/-! ### Control flow -/

/-- R114, R115: the skips on an immediate. -/
def Obligations.ImmediateSkips : Prop :=
  ∀ (x : Reg) (nn : Byte) (s : State),
    DecodesAs (numXB 0x3 x nn) (.seImm x nn) 4 ∧ DecodesAs (numXB 0x4 x nn) (.sneImm x nn) 5 ∧
    (∃ t, exec (.seImm x nn) s = .next t ∧ t.pc = (if readV s x = nn then s.pc + 4 else s.pc + 2) ∧
      SameRegs s t ∧ SameBytes s t ∧ SameRest s t) ∧
    (∃ t, exec (.sneImm x nn) s = .next t ∧ t.pc = (if readV s x ≠ nn then s.pc + 4 else s.pc + 2) ∧
      SameRegs s t ∧ SameBytes s t ∧ SameRest s t)

/-- The skips on two registers, under both values of STRICT_5_9; a word with `n != 0` is illegal under true and the same
skip under false (the spec's decision D4). -/
def Obligations.RegisterSkips : Prop :=
  ∀ (x y : Reg) (n : Nibble) (s : State),
    (∃ t, exec (.seReg x y n) s = .next t ∧ t.pc = (if readV s x = readV s y then s.pc + 4 else s.pc + 2) ∧
      SameRegs s t ∧ SameBytes s t ∧ SameRest s t) ∧
    (∃ t, exec (.sneReg x y n) s = .next t ∧ t.pc = (if readV s x ≠ readV s y then s.pc + 4 else s.pc + 2) ∧
      SameRegs s t ∧ SameBytes s t ∧ SameRest s t) ∧
    (n ≠ 0#4 → decode true (BitVec.ofNat 16 (numXYN 0x5 x y n.toNat)) =
        .error (.illegal (BitVec.ofNat 16 (numXYN 0x5 x y n.toNat))) ∧
      decode true (BitVec.ofNat 16 (numXYN 0x9 x y n.toNat)) =
        .error (.illegal (BitVec.ofNat 16 (numXYN 0x9 x y n.toNat)))) ∧
    decode false (BitVec.ofNat 16 (numXYN 0x5 x y n.toNat)) = .ok (.seReg x y n) ∧
    decode false (BitVec.ofNat 16 (numXYN 0x9 x y n.toNat)) = .ok (.sneReg x y n)

/-- A jump sets `pc` to the 12-bit target and changes nothing else; the next fetch of an odd target, or of 0xFFF, faults
with the target as `fault_pc` (the spec's decisions D6, D14, D29). -/
def Obligations.JumpSetsPc : Prop :=
  ∀ (nnn : Addr12) (s : State), DecodesAs (numA 0x1 nnn) (.jp nnn) 2 ∧
    ∃ t, exec (.jp nnn) s = .next t ∧ t.pc.toNat = nnn.toNat ∧ SameRegs s t ∧ SameBytes s t ∧ SameRest s t ∧
      ∀ u : State, Next .cycle u t → Running t →
        (nnn.toNat = 0xFFF → step u = .next (faulted .fetchOutOfRange { t with loadOpen := false })) ∧
        (nnn.toNat % 2 = 1 → nnn.toNat ≠ 0xFFF →
          step u = .next (faulted .misalignedFetch { t with loadOpen := false }))

/-- The jump with offset adds V0 to the 12-bit base and does not mask the sum (the spec's decision D27); the next fetch of
a sum above 0xFFE, or of an odd one, faults (D6, D14, D29). -/
def Obligations.JumpWithOffsetAddsV0 : Prop :=
  ∀ (nnn : Addr12) (s : State), DecodesAs (numA 0xB nnn) (.jpV0 nnn) 20 ∧
    ∃ t, exec (.jpV0 nnn) s = .next t ∧ t.pc.toNat = nnn.toNat + (readV s 0).toNat ∧ SameRegs s t ∧ SameBytes s t ∧
      SameRest s t ∧ ∀ u : State, Next .cycle u t → Running t →
        (0xFFE < t.pc.toNat → step u = .next (faulted .fetchOutOfRange { t with loadOpen := false })) ∧
        (t.pc.toNat ≤ 0xFFE → t.pc.toNat % 2 = 1 →
          step u = .next (faulted .misalignedFetch { t with loadOpen := false }))

/-- A call with a free slot pushes `ia + 2` and jumps; with 16 calls open it faults and changes nothing else. That the
17th call faults is 90_conflicts C2, what the fault leaves is the spec's decision D14. -/
def Obligations.CallPushesReturnAddress : Prop :=
  ∀ (nnn : Addr12) (s : State),
    (∀ k : Fin 16, s.sp.val = k.val → ∃ t, exec (.call nnn) s = .next t ∧ t.stack[k] = s.pc + 2 ∧
      (∀ j : Fin 16, j ≠ k → t.stack[j] = s.stack[j]) ∧ t.sp.val = s.sp.val + 1 ∧ t.pc.toNat = nnn.toNat ∧
      SameRegs s t ∧ SameBytes s t ∧ t.I = s.I ∧ SameTimers s t ∧ t.disp = s.disp ∧ SameWait s t ∧ SameStatus s t ∧
      t.draws = s.draws ∧ SameOutside s t) ∧
    (s.sp.val = 16 → exec (.call nnn) s = .next (faulted .stackOverflow s))

/-- A return takes the top slot into `pc`, and the slot keeps its value (the spec's decision D20); with no call open it
faults and changes nothing else (D14). -/
def Obligations.ReturnPopsTheStack : Prop :=
  ∀ s : State,
    (∀ k : Fin 16, s.sp.val = k.val + 1 → ∃ t, exec .ret s = .next t ∧ t.pc = s.stack[k] ∧ t.sp.val = k.val ∧
      t.stack = s.stack ∧ SameRegs s t ∧ SameBytes s t ∧ t.I = s.I ∧ SameTimers s t ∧ t.disp = s.disp ∧ SameWait s t ∧
      SameStatus s t ∧ t.draws = s.draws ∧ SameOutside s t) ∧
    (s.sp.val = 0 → exec .ret s = .next (faulted .stackUnderflow s))

/-- Call then return comes back to the word after the call, at every depth from 1 to 16 (95_test_vectors W4): whatever
the called code did to everything but the stack, the return restores `sp` and lands on `ia + 2`. -/
def Obligations.CallThenReturnComesBack : Prop :=
  ∀ (nnn : Addr12) (s u : State), s.sp.val < 16 → ∃ t, exec (.call nnn) s = .next t ∧
    (u.stack = t.stack → u.sp = t.sp → ∃ v, exec .ret u = .next v ∧ v.pc = s.pc + 2 ∧ v.sp = s.sp)

/-! ### Register loads and the ALU -/

/-- R141, R143: load immediate and register copy. -/
def Obligations.LoadAndCopyRegister : Prop :=
  ∀ (x y : Reg) (nn : Byte) (s : State),
    DecodesAs (numXB 0x6 x nn) (.ldImm x nn) 7 ∧ DecodesAs (numXYN 0x8 x y 0x0) (.ldReg x y) 9 ∧
    (∃ t, exec (.ldImm x nn) s = .next t ∧ readV t x = nn ∧ t.pc = s.pc + 2 ∧
      SameRegsBut x s t ∧ SameBytes s t ∧ SameRest s t) ∧
    (∃ t, exec (.ldReg x y) s = .next t ∧ readV t x = readV s y ∧ t.pc = s.pc + 2 ∧
      SameRegsBut x s t ∧ SameBytes s t ∧ SameRest s t)

/-- R142: add immediate wraps at 8 bits and sets no flag. -/
def Obligations.AddImmediateSetsNoFlag : Prop :=
  ∀ (x : Reg) (nn : Byte) (s : State), DecodesAs (numXB 0x7 x nn) (.addImm x nn) 8 ∧
    ∃ t, exec (.addImm x nn) s = .next t ∧ (readV t x).toNat = ((readV s x).toNat + nn.toNat) % 256 ∧
      t.pc = s.pc + 2 ∧ SameRegsBut x s t ∧ SameBytes s t ∧ SameRest s t

/-- R144, R145, R146: or, and, exclusive or, bit by bit; no flag. -/
def Obligations.BitwiseLogic : Prop :=
  ∀ (x y : Reg) (s : State),
    DecodesAs (numXYN 0x8 x y 0x1) (.orReg x y) 10 ∧ DecodesAs (numXYN 0x8 x y 0x2) (.andReg x y) 11 ∧
    DecodesAs (numXYN 0x8 x y 0x3) (.xorReg x y) 12 ∧
    (∃ t, exec (.orReg x y) s = .next t ∧
      (∀ b, (readV t x).getLsbD b = ((readV s x).getLsbD b || (readV s y).getLsbD b)) ∧ t.pc = s.pc + 2 ∧
      SameRegsBut x s t ∧ SameBytes s t ∧ SameRest s t) ∧
    (∃ t, exec (.andReg x y) s = .next t ∧
      (∀ b, (readV t x).getLsbD b = ((readV s x).getLsbD b && (readV s y).getLsbD b)) ∧ t.pc = s.pc + 2 ∧
      SameRegsBut x s t ∧ SameBytes s t ∧ SameRest s t) ∧
    (∃ t, exec (.xorReg x y) s = .next t ∧
      (∀ b, (readV t x).getLsbD b = ((readV s x).getLsbD b ^^ (readV s y).getLsbD b)) ∧ t.pc = s.pc + 2 ∧
      SameRegsBut x s t ∧ SameBytes s t ∧ SameRest s t)

/-- Add registers, for all values (95_test_vectors W1): the sum mod 256, and VF 1 exactly when the sum exceeds 255. With
`x = F` VF ends as the carry and the sum is lost (10_state section 2, decision D5). -/
def Obligations.AddRegistersWithCarry : Prop :=
  ∀ (x y : Reg) (s : State), ∃ t, exec (.addReg x y) s = .next t ∧
    (x ≠ flagReg → (readV t x).toNat = ((readV s x).toNat + (readV s y).toNat) % 256) ∧
    (readV t flagReg).toNat = (if (readV s x).toNat + (readV s y).toNat > 255 then 1 else 0) ∧
    t.pc = s.pc + 2 ∧ SameRegsButFlag x s t ∧ SameBytes s t ∧ SameRest s t

/-- Subtract and reverse subtract, for all values (95_test_vectors W2): the difference mod 256, and VF 1 exactly when
there is no borrow. With `x = F` VF ends as the flag (decision D5). -/
def Obligations.SubtractWithNoBorrowFlag : Prop :=
  ∀ (x y : Reg) (s : State),
    (∃ t, exec (.subReg x y) s = .next t ∧
      (x ≠ flagReg → (readV t x).toNat = ((readV s x).toNat + 256 - (readV s y).toNat) % 256) ∧
      (readV t flagReg).toNat = (if (readV s x).toNat ≥ (readV s y).toNat then 1 else 0) ∧
      t.pc = s.pc + 2 ∧ SameRegsButFlag x s t ∧ SameBytes s t ∧ SameRest s t) ∧
    (∃ t, exec (.subnReg x y) s = .next t ∧
      (x ≠ flagReg → (readV t x).toNat = ((readV s y).toNat + 256 - (readV s x).toNat) % 256) ∧
      (readV t flagReg).toNat = (if (readV s y).toNat ≥ (readV s x).toNat then 1 else 0) ∧
      t.pc = s.pc + 2 ∧ SameRegsButFlag x s t ∧ SameBytes s t ∧ SameRest s t)

/-- The shifts by one: VF is the bit shifted out, and `y` does not matter. With `x = F` VF ends as that bit (decision
D5). -/
def Obligations.ShiftsByOne : Prop :=
  ∀ (x y : Reg) (s : State),
    (∃ t, exec (.shr x y) s = .next t ∧ (x ≠ flagReg → (readV t x).toNat = (readV s x).toNat / 2) ∧
      (readV t flagReg).toNat = (readV s x).toNat % 2 ∧
      t.pc = s.pc + 2 ∧ SameRegsButFlag x s t ∧ SameBytes s t ∧ SameRest s t) ∧
    (∃ t, exec (.shl x y) s = .next t ∧ (x ≠ flagReg → (readV t x).toNat = 2 * (readV s x).toNat % 256) ∧
      (readV t flagReg).toNat = (readV s x).toNat / 128 ∧
      t.pc = s.pc + 2 ∧ SameRegsButFlag x s t ∧ SameBytes s t ∧ SameRest s t)

/-- Random byte under a mask: the result is the next draw, a free value, masked by `nn`; with `nn = 0` it is 0. Each use
takes a fresh draw. That the draw may be any byte is the spec's decision D16; Config.randomByte has no body, so this
holds whatever it is (notes/assumptions/2.md). -/
def Obligations.RandomUnderMask : Prop :=
  ∀ (x : Reg) (nn : Byte) (s : State), ∃ t, exec (.rnd x nn) s = .next t ∧
    (∀ b, (readV t x).getLsbD b = ((Config.randomByte s.draws).getLsbD b && nn.getLsbD b)) ∧
    (nn = 0 → readV t x = 0) ∧ t.draws = s.draws + 1 ∧ t.pc = s.pc + 2 ∧ SameRegsBut x s t ∧ SameBytes s t ∧
    t.I = s.I ∧ SameStack s t ∧ SameTimers s t ∧ t.disp = s.disp ∧ SameWait s t ∧ SameStatus s t ∧ SameOutside s t

/-! ### Index register and memory transfers -/

/-- R180: load index. -/
def Obligations.LoadIndex : Prop :=
  ∀ (nnn : Addr12) (s : State), DecodesAs (numA 0xA nnn) (.ldI nnn) 19 ∧
    ∃ t, exec (.ldI nnn) s = .next t ∧ t.I.toNat = nnn.toNat ∧ t.pc = s.pc + 2 ∧ SameRegs s t ∧ SameBytes s t ∧
      SameStack s t ∧ SameTimers s t ∧ t.disp = s.disp ∧ SameWait s t ∧ SameStatus s t ∧ t.draws = s.draws ∧
      SameOutside s t

/-- Add to index wraps at 16 bits and leaves VF alone (the spec's decision D9). -/
def Obligations.AddIndexSetsNoFlag : Prop :=
  ∀ (x : Reg) (s : State),
    ∃ t, exec (.addI x) s = .next t ∧ t.I.toNat = (s.I.toNat + (readV s x).toNat) % 65536 ∧ t.pc = s.pc + 2 ∧
      SameRegs s t ∧ SameBytes s t ∧ SameStack s t ∧ SameTimers s t ∧ t.disp = s.disp ∧ SameWait s t ∧ SameStatus s t ∧
      t.draws = s.draws ∧ SameOutside s t

/-- R182: the glyph of the low nibble of Vx. -/
def Obligations.GlyphAddress : Prop :=
  ∀ (x : Reg) (s : State), DecodesAs (numXB 0xF x 0x29#8) (.ldF x) 30 ∧
    ∃ t, exec (.ldF x) s = .next t ∧ t.I.toNat = 0x050 + 5 * ((readV s x).toNat % 16) ∧ t.pc = s.pc + 2 ∧
      SameRegs s t ∧ SameBytes s t ∧ SameStack s t ∧ SameTimers s t ∧ t.disp = s.disp ∧ SameWait s t ∧ SameStatus s t ∧
      t.draws = s.draws ∧ SameOutside s t

/-- BCD store with all three addresses in 0x200..0xFFF: hundreds, tens and ones at I, I+1, I+2; every other byte and
everything but `pc` unchanged. The premise on memory is the invariant MemoryStaysCanonical. -/
def Obligations.BcdStoresDigits : Prop :=
  ∀ (x : Reg) (s : State), MemCanonical s → 0x200 ≤ s.I.toNat → s.I.toNat + 2 ≤ 0xFFF →
    ∃ t, exec (.ldB x) s = .next t ∧
      (readByte t s.I.toNat).toNat = (readV s x).toNat / 100 ∧
      (readByte t (s.I.toNat + 1)).toNat = (readV s x).toNat / 10 % 10 ∧
      (readByte t (s.I.toNat + 2)).toNat = (readV s x).toNat % 10 ∧
      SameBytesBut s.I.toNat 3 s t ∧ t.pc = s.pc + 2 ∧ SameRegs s t ∧ SameRest s t

/-- Register dump with all addresses in 0x200..0xFFF: Vk at I+k for k up to x; `I` unchanged (the spec's decision
D10); every other byte and everything but `pc` unchanged. -/
def Obligations.DumpStoresRegisters : Prop :=
  ∀ (x : Reg) (s : State), MemCanonical s → 0x200 ≤ s.I.toNat → s.I.toNat + x.val ≤ 0xFFF →
    ∃ t, exec (.dump x) s = .next t ∧
      (∀ k : Reg, k ≤ x → readByte t (s.I.toNat + k.val) = readV s k) ∧
      SameBytesBut s.I.toNat (x.val + 1) s t ∧ t.pc = s.pc + 2 ∧ SameRegs s t ∧ SameRest s t

/-- Register load with all addresses up to 0xFFF, the reserved range included: Vk is the byte at I+k for k up to x; `I`
unchanged (the spec's decision D10); registers above x and everything but `pc` unchanged. -/
def Obligations.LoadReadsRegisters : Prop :=
  ∀ (x : Reg) (s : State), s.I.toNat + x.val ≤ 0xFFF →
    ∃ t, exec (.load x) s = .next t ∧
      (∀ k : Reg, k ≤ x → readV t k = readByte s (s.I.toNat + k.val)) ∧
      (∀ k : Reg, x < k → readV t k = readV s k) ∧ SameBytes s t ∧ t.pc = s.pc + 2 ∧ SameRest s t

/-- The data faults: an address above 0xFFF (the spec's decision D7), or a write below 0x200 (D8), leaves everything as
it was but the fault status (D14); no byte of the block is written, no register is loaded, no pixel is drawn. -/
def Obligations.DataFaultsArePrecise : Prop :=
  ∀ (x y : Reg) (n : Nibble) (s : State),
    (s.I.toNat < 0x200 → exec (.ldB x) s = .next (faulted .reservedWrite s) ∧
      exec (.dump x) s = .next (faulted .reservedWrite s)) ∧
    (0xFFF < s.I.toNat + 2 → exec (.ldB x) s = .next (faulted .dataOutOfRange s)) ∧
    (0xFFF < s.I.toNat + x.val → exec (.dump x) s = .next (faulted .dataOutOfRange s) ∧
      exec (.load x) s = .next (faulted .dataOutOfRange s)) ∧
    (n ≠ 0#4 → 0x1000 < s.I.toNat + n.toNat → exec (.drw x y n) s = .next (faulted .dataOutOfRange s))

/-- Register dump then register load through the same I and x brings V0..Vx back, whatever happened to the registers
and `pc` in between (95_test_vectors W7; `I` unchanged is the spec's decision D10). -/
def Obligations.DumpLoadRoundTrip : Prop :=
  ∀ (x : Reg) (s : State) (regs : Vector Byte 16) (at' : Word), MemCanonical s → 0x200 ≤ s.I.toNat →
    s.I.toNat + x.val ≤ 0xFFF →
    ∃ t u, exec (.dump x) s = .next t ∧ exec (.load x) { t with V := regs, pc := at' } = .next u ∧ u.I = s.I ∧
      ∀ k : Reg, k ≤ x → readV u k = readV s k

/-- A word stored by a register dump is what the next fetch at its address reads, high byte first, as a number
(90_conflicts C1). -/
def Obligations.FetchSeesStoredBytes : Prop :=
  ∀ (x k l : Reg) (s : State), MemCanonical s → 0x200 ≤ s.I.toNat → s.I.toNat + x.val ≤ 0xFFF →
    l.val = k.val + 1 → l ≤ x → (s.I.toNat + k.val) % 2 = 0 →
    ∃ t w, exec (.dump x) s = .next t ∧ fetch { t with pc := BitVec.ofNat 16 (s.I.toNat + k.val) } = .ok w ∧
      w.toNat = 0x100 * (readV s k).toNat + (readV s l).toNat

/-! ### Display -/

/-- R200: clear display. -/
def Obligations.ClearDisplay : Prop :=
  DecodesAs 0x00E0 .cls 0 ∧ ∀ s : State, ∃ t, exec .cls s = .next t ∧ (∀ r c, pixel t.disp r c = false) ∧
    t.pc = s.pc + 2 ∧ SameRegs s t ∧ SameBytes s t ∧ t.I = s.I ∧ SameStack s t ∧ SameTimers s t ∧ SameWait s t ∧
    SameStatus s t ∧ t.draws = s.draws ∧ SameOutside s t

/-- Draw sprite, pixel by pixel, when every sprite byte is in memory: each pixel on the screen is XORed with the sprite's
bit over it, pixels off the screen are clipped and the start position is not reduced (the spec's decision D11); VF is 1
when a lit pixel was turned off and 0 when none was. -/
def Obligations.DrawSpriteXorsPixels : Prop :=
  ∀ (x y : Reg) (n : Nibble) (s : State), n = 0#4 ∨ s.I.toNat + n.toNat ≤ 0x1000 →
    ∃ t, exec (.drw x y n) s = .next t ∧
      (∀ r c, r < 32 → c < 64 → pixel t.disp r c =
        (pixel s.disp r c ^^ spriteBit s (readV s x).toNat (readV s y).toNat n.toNat r c)) ∧
      ((∃ r c, r < 32 ∧ c < 64 ∧ pixel s.disp r c = true ∧ pixel t.disp r c = false) → readV t flagReg = 1) ∧
      ((∀ r c, r < 32 → c < 64 → pixel s.disp r c = true → pixel t.disp r c = true) → readV t flagReg = 0) ∧
      t.pc = s.pc + 2 ∧ SameRegsBut flagReg s t ∧ SameBytes s t ∧ t.I = s.I ∧ SameStack s t ∧ SameTimers s t ∧
      SameWait s t ∧ SameStatus s t ∧ t.draws = s.draws ∧ SameOutside s t

/-- Drawing the same sprite twice at the same place restores the buffer, and the second draw sets VF to 1 exactly when
the sprite has a 1 bit over a pixel of the screen that was off before the first draw. (44_display R201's sentence "when
the sprite has any 1 bit on screen" is this on a blank buffer; over pixels that were lit its pseudocode gives 0,
notes/assumptions/17.md.) "The same place" is the premise that Vx and Vy are unchanged by the first draw's flag: it holds
whenever neither is VF. -/
def Obligations.DrawTwiceRestores : Prop :=
  ∀ (x y : Reg) (n : Nibble) (s : State), n = 0#4 ∨ s.I.toNat + n.toNat ≤ 0x1000 →
    ∃ t u, exec (.drw x y n) s = .next t ∧ exec (.drw x y n) t = .next u ∧
      (readV t x = readV s x → readV t y = readV s y → u.disp = s.disp ∧
        (readV u flagReg = 1 ↔ ∃ r c, r < 32 ∧ c < 64 ∧
          spriteBit s (readV s x).toNat (readV s y).toNat n.toNat r c = true ∧ pixel s.disp r c = false))

/-- Clear display then any draw gives the buffer and flag of the same draw on a blank buffer, whatever was shown
before. -/
def Obligations.ClearThenDrawIsDrawOnBlank : Prop :=
  ∀ (x y : Reg) (n : Nibble) (s : State), ∃ t u v, exec .cls s = .next t ∧ exec (.drw x y n) t = .next u ∧
    exec (.drw x y n) { s with disp := blankDisplay } = .next v ∧ u.disp = v.disp ∧
    readV u flagReg = readV v flagReg ∧ u.faultCode = v.faultCode

/-! ### Keys, timers, outputs -/

/-- The key skips with a key number 0 to 15 in Vx; a larger one faults and changes nothing else (the spec's decision
D12). -/
def Obligations.KeySkips : Prop :=
  ∀ (x : Reg) (s : State),
    ((readV s x).toNat ≤ 15 →
      (∃ t, exec (.skp x) s = .next t ∧
        t.pc = (if s.keys.getLsbD (readV s x).toNat = true then s.pc + 4 else s.pc + 2) ∧
        SameRegs s t ∧ SameBytes s t ∧ SameRest s t) ∧
      (∃ t, exec (.sknp x) s = .next t ∧
        t.pc = (if s.keys.getLsbD (readV s x).toNat = false then s.pc + 4 else s.pc + 2) ∧
        SameRegs s t ∧ SameBytes s t ∧ SameRest s t)) ∧
    (15 < (readV s x).toNat → exec (.skp x) s = .next (faulted .keyIndexOutOfRange s) ∧
      exec (.sknp x) s = .next (faulted .keyIndexOutOfRange s))

/-- R222, R225, R226: the moves between Vx and the timers. -/
def Obligations.TimerMoves : Prop :=
  ∀ (x : Reg) (s : State),
    DecodesAs (numXB 0xF x 0x07#8) (.ldVxDT x) 25 ∧ DecodesAs (numXB 0xF x 0x15#8) (.ldDTVx x) 27 ∧
    DecodesAs (numXB 0xF x 0x18#8) (.ldSTVx x) 28 ∧
    (∃ t, exec (.ldVxDT x) s = .next t ∧ readV t x = s.DT ∧ t.pc = s.pc + 2 ∧ SameRegsBut x s t ∧ SameBytes s t ∧
      SameRest s t) ∧
    (∃ t, exec (.ldDTVx x) s = .next t ∧ t.DT = readV s x ∧ t.ST = s.ST ∧ t.pc = s.pc + 2 ∧ SameRegs s t ∧
      SameBytes s t ∧ t.I = s.I ∧ SameStack s t ∧ t.disp = s.disp ∧ SameWait s t ∧ SameStatus s t ∧ t.draws = s.draws ∧
      SameOutside s t) ∧
    (∃ t, exec (.ldSTVx x) s = .next t ∧ t.ST = readV s x ∧ t.DT = s.DT ∧ (outputs t).soundOn = (readV s x != 0) ∧
      t.pc = s.pc + 2 ∧ SameRegs s t ∧ SameBytes s t ∧ t.I = s.I ∧ SameStack s t ∧ t.disp = s.disp ∧ SameWait s t ∧
      SameStatus s t ∧ t.draws = s.draws ∧ SameOutside s t)

/-- Wait for key: the wait state is entered for Vx, the keys held now are sampled so that they do not count (the spec's
decision D13), `pc` is `ia + 2`, and Vx is not written yet. -/
def Obligations.WaitForKeyEntersWait : Prop :=
  ∀ (x : Reg) (s : State), ∃ t, exec (.ldVxK x) s = .next t ∧ t.wait = some x ∧ t.keyPrev = s.keys ∧
    (outputs t).waiting = true ∧ t.pc = s.pc + 2 ∧ SameRegs s t ∧ SameBytes s t ∧ t.I = s.I ∧ SameStack s t ∧
    SameTimers s t ∧ t.disp = s.disp ∧ SameStatus s t ∧ t.draws = s.draws ∧ SameOutside s t

/-! ### Whole-machine rules -/

/-- Every instruction answers a next state in every state: it either takes one of the faults R300 lists for it, and then
nothing but the fault status changes, or it leaves the fault status alone. The restore is the spec's decision D14. -/
def Obligations.ExecAnswersOrFaultsPrecisely : Prop :=
  ∀ (i : Instr) (s : State), ∃ t, exec i s = .next t ∧
    ((∃ c, c ∈ mayRaise i ∧ t = faulted c s) ∨ SameStatus s t)

/-- Which instructions may write which state outside the general registers: `I` only Annn, Fx1E and Fx29; the stack only
2nnn and 00EE; memory only Fx33 and Fx55; the display only 00E0 and Dxyn; DT only Fx15; ST only Fx18; the wait state only
Fx0A; a draw only Cxnn; the keypad, the parameters and the host's side none. -/
def Obligations.OnlyTheListedInstructionsWriteState : Prop :=
  ∀ (i : Instr) (s t : State), exec i s = .next t →
    ((∀ x, i ≠ .ldB x) → (∀ x, i ≠ .dump x) → SameBytes s t) ∧
    ((∀ a, i ≠ .ldI a) → (∀ x, i ≠ .addI x) → (∀ x, i ≠ .ldF x) → t.I = s.I) ∧
    ((∀ a, i ≠ .call a) → i ≠ .ret → SameStack s t) ∧
    (i ≠ .cls → (∀ x y n, i ≠ .drw x y n) → t.disp = s.disp) ∧
    ((∀ x, i ≠ .ldDTVx x) → t.DT = s.DT) ∧ ((∀ x, i ≠ .ldSTVx x) → t.ST = s.ST) ∧
    ((∀ x, i ≠ .ldVxK x) → SameWait s t) ∧ ((∀ x nn, i ≠ .rnd x nn) → t.draws = s.draws) ∧ SameOutside s t

/-- Which instructions may write which general registers: Vx where the rule names it as the destination, VF as a flag by
the six instructions of 10_state section 2 alone, V0 to Vx by Fx65. -/
def Obligations.OnlyTheListedInstructionsWriteRegisters : Prop :=
  ∀ (i : Instr) (s t : State) (r : Reg), exec i s = .next t → mayWrite i r = false → readV t r = readV s r

/-- The program-counter mux: after an instruction that does not fault `pc` is what the mux selects for it; one that does
takes one of the faults 60_exceptions R300 lists for it and changes nothing but the fault status, `pc` included
(60_exceptions R301, the spec's decision D14). -/
def Obligations.ProgramCounterMux : Prop :=
  ∀ (i : Instr) (s t : State), exec i s = .next t → MuxAllows i s t.pc ∨ (∃ c, c ∈ mayRaise i ∧ t = faulted c s)

/-- Every step answers a next state, but for a `Load` the spec does not admit (the spec's decision D21), which is
refused; and no step changes the parameters. -/
def Obligations.StepAnswersUnlessLoadRefused : Prop :=
  ∀ s : State, (∃ t, step s = .next t ∧ t.config = s.config) ∨
    (∃ rom rest, s.host = .load rom :: rest ∧ (s.loadOpen = false ∨ s.halted = true) ∧
      step s = .refused .loadNotAdmitted)

/-! ### Invariants -/

/-- Memory keeps its canonical form through every step, whatever the host does. -/
def Obligations.MemoryStaysCanonical : Prop :=
  ∀ s t : State, MemCanonical s → step s = .next t → MemCanonical t

/-- The reserved range 0x000..0x1FF keeps its reset contents, the font among them, through every step (the spec's
decision D8). -/
def Obligations.ReservedRangeStaysIntact : Prop :=
  ∀ s t : State, MemCanonical s → ReservedIntact s → step s = .next t → ReservedIntact t

/-- The fault status stays consistent through every step: halted exactly when a fault is recorded, never both halted and
waiting, and no `Load` admitted once halted or waiting (the admission is notes/assumptions/5.md). -/
def Obligations.StatusStaysConsistent : Prop :=
  ∀ s t : State, StatusConsistent s → step s = .next t → StatusConsistent t

/-- `pc` never wraps: it stays at or below 0x10FE, every stack slot at or below 0x1000, through every step. -/
def Obligations.PcStaysBounded : Prop :=
  ∀ s t : State, PcBounded s → step s = .next t → PcBounded t

/-- The state after reset meets all four invariants. -/
def Obligations.ResetMeetsInvariants : Prop :=
  MemCanonical State.reset ∧ ReservedIntact State.reset ∧ StatusConsistent State.reset ∧ PcBounded State.reset

/-- Canonical memories that read alike at every address are equal. -/
def Obligations.CanonicalMemoryIsDeterminedByReads : Prop :=
  ∀ (font : Vector Byte 80) (m m' : Memory), m.wf font = true → m'.wf font = true →
    (∀ a, memGet font m a = memGet font m' a) → m = m'

/-- What the host reads (10_state R46): the fault number R300 gives each fault, the fault status, the display, the sound and
the waiting output of every state; and what it reads of the fault status once a fault was taken. The numbers are the
spec's decision D15, the views of the fault status and of the wait D1, what a fault records D14. -/
def Obligations.HostReadsStateAndFaultNumbers : Prop :=
  (∀ s : State, (∀ r c, pixel (outputs s).disp r c = pixel s.disp r c) ∧
    ((outputs s).soundOn = true ↔ 0 < s.ST.toNat) ∧ ((outputs s).waiting = true ↔ ∃ x, s.wait = some x) ∧
    (outputs s).halted = s.halted ∧ (outputs s).faultCode = faultNumber s.faultCode ∧
    (outputs s).faultPc = s.faultPc) ∧
  faultNumber .none = 0 ∧
  ∀ p ∈ [(FaultCode.stackOverflow, 1), (.stackUnderflow, 2), (.fetchOutOfRange, 3), (.misalignedFetch, 4),
      (.illegalOpcode, 5), (.dataOutOfRange, 6), (.reservedWrite, 7), (.keyIndexOutOfRange, 8), (.romTooLarge, 9)],
    ∀ s : State, (outputs (faulted p.1 s)).halted = true ∧ (outputs (faulted p.1 s)).faultCode = p.2 ∧
      (outputs (faulted p.1 s)).faultPc = s.pc
end

