-- ==== Sys2Proof/Laws/Memory.lean ====
section
/-! SUPPORT. The laws of memory: a read after a write, canonical form kept by every operation, and equal reads of
canonical memories give equal memories. -/
namespace Sys2Proof.Machine

variable {font : Vector Byte 80}

@[simp] theorem memGet_nil (a : Nat) : memGet font [] a = resetByte font a := rfl

theorem memGet_cons (k : Nat) (b : Byte) (m : Memory) (a : Nat) :
    memGet font ((k, b) :: m) a = if a = k then b else memGet font m a := rfl

/-- The font's bytes are the reset contents of 0x050..0x09F. -/
theorem resetByte_font (k : Nat) (h : k < 80) : resetByte font (0x050 + k) = font[k] := by
  simp [resetByte, fontBase, h]

/-- Outside the font the reset contents are 0. -/
theorem resetByte_zero {a : Nat} (h : a < 0x050 ∨ 0x0A0 ≤ a) : resetByte font a = 0 := by
  unfold resetByte fontBase
  split
  · omega
  · rfl

/-- Canonical form from an address is canonical form from any lower one. -/
theorem wfFrom_mono {low low' : Nat} (h : low' ≤ low) : ∀ {m : Memory}, wfFrom font low m = true → wfFrom font low' m = true
  | [], _ => rfl
  | (k, b) :: m, hw => by
    simp only [wfFrom, Bool.and_eq_true, decide_eq_true_eq] at hw ⊢
    exact ⟨⟨⟨by omega, hw.1.1.2⟩, hw.1.2⟩, hw.2⟩

/-- An address below all listed ones reads as its reset contents. -/
theorem memGet_below {low a : Nat} (ha : a < low) : ∀ {m : Memory}, wfFrom font low m = true → memGet font m a = resetByte font a
  | [], _ => rfl
  | (k, b) :: m, hw => by
    simp only [wfFrom, Bool.and_eq_true, decide_eq_true_eq] at hw
    rw [memGet_cons, if_neg (by omega)]
    exact memGet_below (low := k + 1) (by omega) hw.2

theorem memGet_cellFor_append (a b : Nat) (v : Byte) (m : Memory) (hm : memGet font m a = resetByte font a) :
    memGet font (cellFor font a v ++ m) b = if b = a then v else memGet font m b := by
  unfold cellFor
  split
  · next h =>
    by_cases hb : b = a
    · subst hb; simp [hm, h]
    · simp [hb]
  · rfl

/-- A read after a write: the written address gives the value written, every other one what it gave. -/
theorem memGet_memSet_from {low : Nat} (a b : Nat) (v : Byte) :
    ∀ {m : Memory}, wfFrom font low m = true → memGet font (memSet font m a v) b = if b = a then v else memGet font m b
  | [], _ => by simpa [memSet] using memGet_cellFor_append (font := font) a b v [] rfl
  | (k, c) :: m, hw => by
    simp only [wfFrom, Bool.and_eq_true, decide_eq_true_eq] at hw
    unfold memSet
    split
    · next h =>
      refine memGet_cellFor_append a b v _ ?_
      rw [memGet_cons, if_neg (by omega)]
      exact memGet_below (low := k + 1) (by omega) hw.2
    · split
      · next h h2 =>
        subst h2
        rw [memGet_cellFor_append a b v m (memGet_below (low := a + 1) (by omega) hw.2), memGet_cons]
        split <;> simp_all
      · next h h2 =>
        rw [memGet_cons, memGet_memSet_from a b v hw.2, memGet_cons]
        by_cases hb : b = k
        · subst hb; simp [Ne.symm h2]
        · simp [hb]

theorem memGet_memSet {m : Memory} (hw : m.wf font = true) (a b : Nat) (v : Byte) :
    memGet font (memSet font m a v) b = if b = a then v else memGet font m b :=
  memGet_memSet_from a b v hw

theorem wfFrom_cellFor_append {low a : Nat} {v : Byte} {m : Memory} (hl : low ≤ a) (ha : a < 0x1000)
    (hm : wfFrom font (a + 1) m = true) : wfFrom font low (cellFor font a v ++ m) = true := by
  unfold cellFor
  split
  · exact wfFrom_mono (by omega) hm
  · next h =>
    simp only [List.singleton_append, wfFrom, Bool.and_eq_true, decide_eq_true_eq]
    exact ⟨⟨⟨hl, ha⟩, by simpa using h⟩, hm⟩

/-- A write inside the address space keeps canonical form. -/
theorem wfFrom_memSet {a : Nat} (ha : a < 0x1000) (v : Byte) :
    ∀ {low : Nat} {m : Memory}, low ≤ a → wfFrom font low m = true → wfFrom font low (memSet font m a v) = true
  | _, [], hl, _ => by simpa [memSet] using wfFrom_cellFor_append (v := v) hl ha (m := []) rfl
  | low, (k, c) :: m, hl, hw => by
    have hw' := hw
    simp only [wfFrom, Bool.and_eq_true, decide_eq_true_eq] at hw'
    unfold memSet
    split
    · next h =>
      refine wfFrom_cellFor_append hl ha ?_
      simp only [wfFrom, Bool.and_eq_true, decide_eq_true_eq]
      exact ⟨⟨⟨by omega, hw'.1.1.2⟩, hw'.1.2⟩, hw'.2⟩
    · split
      · next h h2 =>
        subst h2
        exact wfFrom_cellFor_append hl ha hw'.2
      · next h h2 =>
        simp only [wfFrom, Bool.and_eq_true, decide_eq_true_eq]
        exact ⟨hw'.1, wfFrom_memSet ha v (by omega) hw'.2⟩

theorem wf_memSet {m : Memory} (hw : m.wf font = true) {a : Nat} (ha : a < 0x1000) (v : Byte) :
    (memSet font m a v).wf font = true := wfFrom_memSet ha v (Nat.zero_le _) hw

/-- A run of bytes inside the address space keeps canonical form. -/
theorem wf_memSetRun : ∀ {bs : List Byte} {m : Memory} {a : Nat}, m.wf font = true → a + bs.length ≤ 0x1000 →
    (memSetRun font m a bs).wf font = true
  | [], _, _, hw, _ => hw
  | _ :: bs, _, _, hw, h => by
    simp only [List.length_cons] at h
    exact wf_memSetRun (bs := bs) (wf_memSet hw (by omega) _) (by omega)

/-- What a run of stored bytes reads as: its own bytes inside it, the old ones outside. -/
theorem memGet_memSetRun : ∀ {bs : List Byte} {m : Memory} {a : Nat}, m.wf font = true → a + bs.length ≤ 0x1000 → ∀ b,
    memGet font (memSetRun font m a bs) b =
      if h : a ≤ b ∧ b - a < bs.length then bs[b - a]'h.2 else memGet font m b
  | [], _, _, _, _, b => by simp [memSetRun]
  | v :: bs, m, a, hw, h, b => by
    simp only [List.length_cons] at h
    simp only [memSetRun]
    rw [memGet_memSetRun (wf_memSet hw (by omega) v) (by omega) b]
    by_cases h1 : a + 1 ≤ b ∧ b - (a + 1) < bs.length
    · have h2 : a ≤ b ∧ b - a < (v :: bs).length := by simp only [List.length_cons]; omega
      rw [dif_pos h1, dif_pos h2]
      have h3 : b - a = b - (a + 1) + 1 := by omega
      simp [h3]
    · rw [dif_neg h1, memGet_memSet hw]
      by_cases hb : b = a
      · subst hb; simp
      · have h2 : ¬ (a ≤ b ∧ b - a < (v :: bs).length) := by simp only [List.length_cons]; omega
        rw [dif_neg h2, if_neg hb]

/-- The tail of a canonical memory reads as the memory does, but for its first cell. -/
theorem memGet_tail {low k : Nat} {b : Byte} {m : Memory} (hw : wfFrom font low ((k, b) :: m) = true) (a : Nat) :
    memGet font m a = if a = k then resetByte font a else memGet font ((k, b) :: m) a := by
  simp only [wfFrom, Bool.and_eq_true, decide_eq_true_eq] at hw
  by_cases h : a = k
  · rw [if_pos h]; exact memGet_below (low := k + 1) (by omega) hw.2
  · rw [if_neg h, memGet_cons, if_neg h]

end Sys2Proof.Machine
end

