-- ==== Sys2Proof/Laws/State.lean ====
section
/-! SUPPORT. One lemma per field per update of the state, so that no later proof unfolds a record update; and what the
register and byte reads see of each update. -/
namespace Sys2Proof.Machine

/-! ### writeV -/

@[simp] theorem writeV_mem (x : Reg) (v : Byte) (s : State) : (writeV x v s).mem = s.mem := rfl
@[simp] theorem writeV_V (x : Reg) (v : Byte) (s : State) : (writeV x v s).V = s.V.set x v := rfl
@[simp] theorem writeV_I (x : Reg) (v : Byte) (s : State) : (writeV x v s).I = s.I := rfl
@[simp] theorem writeV_pc (x : Reg) (v : Byte) (s : State) : (writeV x v s).pc = s.pc := rfl
@[simp] theorem writeV_stack (x : Reg) (v : Byte) (s : State) : (writeV x v s).stack = s.stack := rfl
@[simp] theorem writeV_sp (x : Reg) (v : Byte) (s : State) : (writeV x v s).sp = s.sp := rfl
@[simp] theorem writeV_DT (x : Reg) (v : Byte) (s : State) : (writeV x v s).DT = s.DT := rfl
@[simp] theorem writeV_ST (x : Reg) (v : Byte) (s : State) : (writeV x v s).ST = s.ST := rfl
@[simp] theorem writeV_disp (x : Reg) (v : Byte) (s : State) : (writeV x v s).disp = s.disp := rfl
@[simp] theorem writeV_keys (x : Reg) (v : Byte) (s : State) : (writeV x v s).keys = s.keys := rfl
@[simp] theorem writeV_wait (x : Reg) (v : Byte) (s : State) : (writeV x v s).wait = s.wait := rfl
@[simp] theorem writeV_keyPrev (x : Reg) (v : Byte) (s : State) : (writeV x v s).keyPrev = s.keyPrev := rfl
@[simp] theorem writeV_halted (x : Reg) (v : Byte) (s : State) : (writeV x v s).halted = s.halted := rfl
@[simp] theorem writeV_faultCode (x : Reg) (v : Byte) (s : State) : (writeV x v s).faultCode = s.faultCode := rfl
@[simp] theorem writeV_faultPc (x : Reg) (v : Byte) (s : State) : (writeV x v s).faultPc = s.faultPc := rfl
@[simp] theorem writeV_config (x : Reg) (v : Byte) (s : State) : (writeV x v s).config = s.config := rfl
@[simp] theorem writeV_host (x : Reg) (v : Byte) (s : State) : (writeV x v s).host = s.host := rfl
@[simp] theorem writeV_loadOpen (x : Reg) (v : Byte) (s : State) : (writeV x v s).loadOpen = s.loadOpen := rfl
@[simp] theorem writeV_draws (x : Reg) (v : Byte) (s : State) : (writeV x v s).draws = s.draws := rfl

/-! ### advance -/

@[simp] theorem advance_mem (s : State) : (advance s).mem = s.mem := rfl
@[simp] theorem advance_V (s : State) : (advance s).V = s.V := rfl
@[simp] theorem advance_I (s : State) : (advance s).I = s.I := rfl
@[simp] theorem advance_pc (s : State) : (advance s).pc = s.pc + 2 := rfl
@[simp] theorem advance_stack (s : State) : (advance s).stack = s.stack := rfl
@[simp] theorem advance_sp (s : State) : (advance s).sp = s.sp := rfl
@[simp] theorem advance_DT (s : State) : (advance s).DT = s.DT := rfl
@[simp] theorem advance_ST (s : State) : (advance s).ST = s.ST := rfl
@[simp] theorem advance_disp (s : State) : (advance s).disp = s.disp := rfl
@[simp] theorem advance_keys (s : State) : (advance s).keys = s.keys := rfl
@[simp] theorem advance_wait (s : State) : (advance s).wait = s.wait := rfl
@[simp] theorem advance_keyPrev (s : State) : (advance s).keyPrev = s.keyPrev := rfl
@[simp] theorem advance_halted (s : State) : (advance s).halted = s.halted := rfl
@[simp] theorem advance_faultCode (s : State) : (advance s).faultCode = s.faultCode := rfl
@[simp] theorem advance_faultPc (s : State) : (advance s).faultPc = s.faultPc := rfl
@[simp] theorem advance_config (s : State) : (advance s).config = s.config := rfl
@[simp] theorem advance_host (s : State) : (advance s).host = s.host := rfl
@[simp] theorem advance_loadOpen (s : State) : (advance s).loadOpen = s.loadOpen := rfl
@[simp] theorem advance_draws (s : State) : (advance s).draws = s.draws := rfl

/-! ### setPc -/

@[simp] theorem setPc_mem (a : Word) (s : State) : (setPc a s).mem = s.mem := rfl
@[simp] theorem setPc_V (a : Word) (s : State) : (setPc a s).V = s.V := rfl
@[simp] theorem setPc_I (a : Word) (s : State) : (setPc a s).I = s.I := rfl
@[simp] theorem setPc_pc (a : Word) (s : State) : (setPc a s).pc = a := rfl
@[simp] theorem setPc_stack (a : Word) (s : State) : (setPc a s).stack = s.stack := rfl
@[simp] theorem setPc_sp (a : Word) (s : State) : (setPc a s).sp = s.sp := rfl
@[simp] theorem setPc_DT (a : Word) (s : State) : (setPc a s).DT = s.DT := rfl
@[simp] theorem setPc_ST (a : Word) (s : State) : (setPc a s).ST = s.ST := rfl
@[simp] theorem setPc_disp (a : Word) (s : State) : (setPc a s).disp = s.disp := rfl
@[simp] theorem setPc_keys (a : Word) (s : State) : (setPc a s).keys = s.keys := rfl
@[simp] theorem setPc_wait (a : Word) (s : State) : (setPc a s).wait = s.wait := rfl
@[simp] theorem setPc_keyPrev (a : Word) (s : State) : (setPc a s).keyPrev = s.keyPrev := rfl
@[simp] theorem setPc_halted (a : Word) (s : State) : (setPc a s).halted = s.halted := rfl
@[simp] theorem setPc_faultCode (a : Word) (s : State) : (setPc a s).faultCode = s.faultCode := rfl
@[simp] theorem setPc_faultPc (a : Word) (s : State) : (setPc a s).faultPc = s.faultPc := rfl
@[simp] theorem setPc_config (a : Word) (s : State) : (setPc a s).config = s.config := rfl
@[simp] theorem setPc_host (a : Word) (s : State) : (setPc a s).host = s.host := rfl
@[simp] theorem setPc_loadOpen (a : Word) (s : State) : (setPc a s).loadOpen = s.loadOpen := rfl
@[simp] theorem setPc_draws (a : Word) (s : State) : (setPc a s).draws = s.draws := rfl

/-! ### setI -/

@[simp] theorem setI_mem (a : Word) (s : State) : (setI a s).mem = s.mem := rfl
@[simp] theorem setI_V (a : Word) (s : State) : (setI a s).V = s.V := rfl
@[simp] theorem setI_I (a : Word) (s : State) : (setI a s).I = a := rfl
@[simp] theorem setI_pc (a : Word) (s : State) : (setI a s).pc = s.pc := rfl
@[simp] theorem setI_stack (a : Word) (s : State) : (setI a s).stack = s.stack := rfl
@[simp] theorem setI_sp (a : Word) (s : State) : (setI a s).sp = s.sp := rfl
@[simp] theorem setI_DT (a : Word) (s : State) : (setI a s).DT = s.DT := rfl
@[simp] theorem setI_ST (a : Word) (s : State) : (setI a s).ST = s.ST := rfl
@[simp] theorem setI_disp (a : Word) (s : State) : (setI a s).disp = s.disp := rfl
@[simp] theorem setI_keys (a : Word) (s : State) : (setI a s).keys = s.keys := rfl
@[simp] theorem setI_wait (a : Word) (s : State) : (setI a s).wait = s.wait := rfl
@[simp] theorem setI_keyPrev (a : Word) (s : State) : (setI a s).keyPrev = s.keyPrev := rfl
@[simp] theorem setI_halted (a : Word) (s : State) : (setI a s).halted = s.halted := rfl
@[simp] theorem setI_faultCode (a : Word) (s : State) : (setI a s).faultCode = s.faultCode := rfl
@[simp] theorem setI_faultPc (a : Word) (s : State) : (setI a s).faultPc = s.faultPc := rfl
@[simp] theorem setI_config (a : Word) (s : State) : (setI a s).config = s.config := rfl
@[simp] theorem setI_host (a : Word) (s : State) : (setI a s).host = s.host := rfl
@[simp] theorem setI_loadOpen (a : Word) (s : State) : (setI a s).loadOpen = s.loadOpen := rfl
@[simp] theorem setI_draws (a : Word) (s : State) : (setI a s).draws = s.draws := rfl

/-! ### raise -/

@[simp] theorem raise_mem (c : FaultCode) (s : State) : (raise c s).mem = s.mem := rfl
@[simp] theorem raise_V (c : FaultCode) (s : State) : (raise c s).V = s.V := rfl
@[simp] theorem raise_I (c : FaultCode) (s : State) : (raise c s).I = s.I := rfl
@[simp] theorem raise_pc (c : FaultCode) (s : State) : (raise c s).pc = s.pc := rfl
@[simp] theorem raise_stack (c : FaultCode) (s : State) : (raise c s).stack = s.stack := rfl
@[simp] theorem raise_sp (c : FaultCode) (s : State) : (raise c s).sp = s.sp := rfl
@[simp] theorem raise_DT (c : FaultCode) (s : State) : (raise c s).DT = s.DT := rfl
@[simp] theorem raise_ST (c : FaultCode) (s : State) : (raise c s).ST = s.ST := rfl
@[simp] theorem raise_disp (c : FaultCode) (s : State) : (raise c s).disp = s.disp := rfl
@[simp] theorem raise_keys (c : FaultCode) (s : State) : (raise c s).keys = s.keys := rfl
@[simp] theorem raise_wait (c : FaultCode) (s : State) : (raise c s).wait = s.wait := rfl
@[simp] theorem raise_keyPrev (c : FaultCode) (s : State) : (raise c s).keyPrev = s.keyPrev := rfl
@[simp] theorem raise_halted (c : FaultCode) (s : State) : (raise c s).halted = true := rfl
@[simp] theorem raise_faultCode (c : FaultCode) (s : State) : (raise c s).faultCode = c := rfl
@[simp] theorem raise_faultPc (c : FaultCode) (s : State) : (raise c s).faultPc = s.pc := rfl
@[simp] theorem raise_config (c : FaultCode) (s : State) : (raise c s).config = s.config := rfl
@[simp] theorem raise_host (c : FaultCode) (s : State) : (raise c s).host = s.host := rfl
@[simp] theorem raise_loadOpen (c : FaultCode) (s : State) : (raise c s).loadOpen = s.loadOpen := rfl
@[simp] theorem raise_draws (c : FaultCode) (s : State) : (raise c s).draws = s.draws := rfl

/-! ### writeFlag -/

@[simp] theorem writeFlag_mem (f : Bool) (s : State) : (writeFlag f s).mem = s.mem := rfl
@[simp] theorem writeFlag_V (f : Bool) (s : State) : (writeFlag f s).V = s.V.set flagReg (flagByte f) := rfl
@[simp] theorem writeFlag_I (f : Bool) (s : State) : (writeFlag f s).I = s.I := rfl
@[simp] theorem writeFlag_pc (f : Bool) (s : State) : (writeFlag f s).pc = s.pc := rfl
@[simp] theorem writeFlag_stack (f : Bool) (s : State) : (writeFlag f s).stack = s.stack := rfl
@[simp] theorem writeFlag_sp (f : Bool) (s : State) : (writeFlag f s).sp = s.sp := rfl
@[simp] theorem writeFlag_DT (f : Bool) (s : State) : (writeFlag f s).DT = s.DT := rfl
@[simp] theorem writeFlag_ST (f : Bool) (s : State) : (writeFlag f s).ST = s.ST := rfl
@[simp] theorem writeFlag_disp (f : Bool) (s : State) : (writeFlag f s).disp = s.disp := rfl
@[simp] theorem writeFlag_keys (f : Bool) (s : State) : (writeFlag f s).keys = s.keys := rfl
@[simp] theorem writeFlag_wait (f : Bool) (s : State) : (writeFlag f s).wait = s.wait := rfl
@[simp] theorem writeFlag_keyPrev (f : Bool) (s : State) : (writeFlag f s).keyPrev = s.keyPrev := rfl
@[simp] theorem writeFlag_halted (f : Bool) (s : State) : (writeFlag f s).halted = s.halted := rfl
@[simp] theorem writeFlag_faultCode (f : Bool) (s : State) : (writeFlag f s).faultCode = s.faultCode := rfl
@[simp] theorem writeFlag_faultPc (f : Bool) (s : State) : (writeFlag f s).faultPc = s.faultPc := rfl
@[simp] theorem writeFlag_config (f : Bool) (s : State) : (writeFlag f s).config = s.config := rfl
@[simp] theorem writeFlag_host (f : Bool) (s : State) : (writeFlag f s).host = s.host := rfl
@[simp] theorem writeFlag_loadOpen (f : Bool) (s : State) : (writeFlag f s).loadOpen = s.loadOpen := rfl
@[simp] theorem writeFlag_draws (f : Bool) (s : State) : (writeFlag f s).draws = s.draws := rfl

/-! ### loadBlock -/

@[simp] theorem loadBlock_mem (bs : List Byte) (s : State) : (loadBlock bs s).mem = s.mem := rfl
@[simp] theorem loadBlock_V (bs : List Byte) (s : State) : (loadBlock bs s).V = setRegsFrom s.V 0 bs := rfl
@[simp] theorem loadBlock_I (bs : List Byte) (s : State) : (loadBlock bs s).I = s.I := rfl
@[simp] theorem loadBlock_pc (bs : List Byte) (s : State) : (loadBlock bs s).pc = s.pc := rfl
@[simp] theorem loadBlock_stack (bs : List Byte) (s : State) : (loadBlock bs s).stack = s.stack := rfl
@[simp] theorem loadBlock_sp (bs : List Byte) (s : State) : (loadBlock bs s).sp = s.sp := rfl
@[simp] theorem loadBlock_DT (bs : List Byte) (s : State) : (loadBlock bs s).DT = s.DT := rfl
@[simp] theorem loadBlock_ST (bs : List Byte) (s : State) : (loadBlock bs s).ST = s.ST := rfl
@[simp] theorem loadBlock_disp (bs : List Byte) (s : State) : (loadBlock bs s).disp = s.disp := rfl
@[simp] theorem loadBlock_keys (bs : List Byte) (s : State) : (loadBlock bs s).keys = s.keys := rfl
@[simp] theorem loadBlock_wait (bs : List Byte) (s : State) : (loadBlock bs s).wait = s.wait := rfl
@[simp] theorem loadBlock_keyPrev (bs : List Byte) (s : State) : (loadBlock bs s).keyPrev = s.keyPrev := rfl
@[simp] theorem loadBlock_halted (bs : List Byte) (s : State) : (loadBlock bs s).halted = s.halted := rfl
@[simp] theorem loadBlock_faultCode (bs : List Byte) (s : State) : (loadBlock bs s).faultCode = s.faultCode := rfl
@[simp] theorem loadBlock_faultPc (bs : List Byte) (s : State) : (loadBlock bs s).faultPc = s.faultPc := rfl
@[simp] theorem loadBlock_config (bs : List Byte) (s : State) : (loadBlock bs s).config = s.config := rfl
@[simp] theorem loadBlock_host (bs : List Byte) (s : State) : (loadBlock bs s).host = s.host := rfl
@[simp] theorem loadBlock_loadOpen (bs : List Byte) (s : State) : (loadBlock bs s).loadOpen = s.loadOpen := rfl
@[simp] theorem loadBlock_draws (bs : List Byte) (s : State) : (loadBlock bs s).draws = s.draws := rfl

/-! ### showDrawn -/

@[simp] theorem showDrawn_mem (r : Display × Bool) (s : State) : (showDrawn r s).mem = s.mem := rfl
@[simp] theorem showDrawn_V (r : Display × Bool) (s : State) : (showDrawn r s).V = s.V.set flagReg (flagByte r.2) := rfl
@[simp] theorem showDrawn_I (r : Display × Bool) (s : State) : (showDrawn r s).I = s.I := rfl
@[simp] theorem showDrawn_pc (r : Display × Bool) (s : State) : (showDrawn r s).pc = s.pc := rfl
@[simp] theorem showDrawn_stack (r : Display × Bool) (s : State) : (showDrawn r s).stack = s.stack := rfl
@[simp] theorem showDrawn_sp (r : Display × Bool) (s : State) : (showDrawn r s).sp = s.sp := rfl
@[simp] theorem showDrawn_DT (r : Display × Bool) (s : State) : (showDrawn r s).DT = s.DT := rfl
@[simp] theorem showDrawn_ST (r : Display × Bool) (s : State) : (showDrawn r s).ST = s.ST := rfl
@[simp] theorem showDrawn_disp (r : Display × Bool) (s : State) : (showDrawn r s).disp = r.1 := rfl
@[simp] theorem showDrawn_keys (r : Display × Bool) (s : State) : (showDrawn r s).keys = s.keys := rfl
@[simp] theorem showDrawn_wait (r : Display × Bool) (s : State) : (showDrawn r s).wait = s.wait := rfl
@[simp] theorem showDrawn_keyPrev (r : Display × Bool) (s : State) : (showDrawn r s).keyPrev = s.keyPrev := rfl
@[simp] theorem showDrawn_halted (r : Display × Bool) (s : State) : (showDrawn r s).halted = s.halted := rfl
@[simp] theorem showDrawn_faultCode (r : Display × Bool) (s : State) : (showDrawn r s).faultCode = s.faultCode := rfl
@[simp] theorem showDrawn_faultPc (r : Display × Bool) (s : State) : (showDrawn r s).faultPc = s.faultPc := rfl
@[simp] theorem showDrawn_config (r : Display × Bool) (s : State) : (showDrawn r s).config = s.config := rfl
@[simp] theorem showDrawn_host (r : Display × Bool) (s : State) : (showDrawn r s).host = s.host := rfl
@[simp] theorem showDrawn_loadOpen (r : Display × Bool) (s : State) : (showDrawn r s).loadOpen = s.loadOpen := rfl
@[simp] theorem showDrawn_draws (r : Display × Bool) (s : State) : (showDrawn r s).draws = s.draws := rfl

/-! ### beginCycle -/

@[simp] theorem beginCycle_mem (s : State) : (beginCycle s).mem = s.mem := rfl
@[simp] theorem beginCycle_V (s : State) : (beginCycle s).V = s.V := rfl
@[simp] theorem beginCycle_I (s : State) : (beginCycle s).I = s.I := rfl
@[simp] theorem beginCycle_pc (s : State) : (beginCycle s).pc = s.pc := rfl
@[simp] theorem beginCycle_stack (s : State) : (beginCycle s).stack = s.stack := rfl
@[simp] theorem beginCycle_sp (s : State) : (beginCycle s).sp = s.sp := rfl
@[simp] theorem beginCycle_DT (s : State) : (beginCycle s).DT = s.DT := rfl
@[simp] theorem beginCycle_ST (s : State) : (beginCycle s).ST = s.ST := rfl
@[simp] theorem beginCycle_disp (s : State) : (beginCycle s).disp = s.disp := rfl
@[simp] theorem beginCycle_keys (s : State) : (beginCycle s).keys = s.keys := rfl
@[simp] theorem beginCycle_wait (s : State) : (beginCycle s).wait = s.wait := rfl
@[simp] theorem beginCycle_keyPrev (s : State) : (beginCycle s).keyPrev = s.keyPrev := rfl
@[simp] theorem beginCycle_halted (s : State) : (beginCycle s).halted = s.halted := rfl
@[simp] theorem beginCycle_faultCode (s : State) : (beginCycle s).faultCode = s.faultCode := rfl
@[simp] theorem beginCycle_faultPc (s : State) : (beginCycle s).faultPc = s.faultPc := rfl
@[simp] theorem beginCycle_config (s : State) : (beginCycle s).config = s.config := rfl
@[simp] theorem beginCycle_host (s : State) : (beginCycle s).host = s.host := rfl
@[simp] theorem beginCycle_loadOpen (s : State) : (beginCycle s).loadOpen = false := rfl
@[simp] theorem beginCycle_draws (s : State) : (beginCycle s).draws = s.draws := rfl

/-! ### hostSetKeys -/

@[simp] theorem hostSetKeys_mem (k : Word) (s : State) : (hostSetKeys k s).mem = s.mem := rfl
@[simp] theorem hostSetKeys_V (k : Word) (s : State) : (hostSetKeys k s).V = s.V := rfl
@[simp] theorem hostSetKeys_I (k : Word) (s : State) : (hostSetKeys k s).I = s.I := rfl
@[simp] theorem hostSetKeys_pc (k : Word) (s : State) : (hostSetKeys k s).pc = s.pc := rfl
@[simp] theorem hostSetKeys_stack (k : Word) (s : State) : (hostSetKeys k s).stack = s.stack := rfl
@[simp] theorem hostSetKeys_sp (k : Word) (s : State) : (hostSetKeys k s).sp = s.sp := rfl
@[simp] theorem hostSetKeys_DT (k : Word) (s : State) : (hostSetKeys k s).DT = s.DT := rfl
@[simp] theorem hostSetKeys_ST (k : Word) (s : State) : (hostSetKeys k s).ST = s.ST := rfl
@[simp] theorem hostSetKeys_disp (k : Word) (s : State) : (hostSetKeys k s).disp = s.disp := rfl
@[simp] theorem hostSetKeys_keys (k : Word) (s : State) : (hostSetKeys k s).keys = k := rfl
@[simp] theorem hostSetKeys_wait (k : Word) (s : State) : (hostSetKeys k s).wait = s.wait := rfl
@[simp] theorem hostSetKeys_keyPrev (k : Word) (s : State) : (hostSetKeys k s).keyPrev = s.keyPrev := rfl
@[simp] theorem hostSetKeys_halted (k : Word) (s : State) : (hostSetKeys k s).halted = s.halted := rfl
@[simp] theorem hostSetKeys_faultCode (k : Word) (s : State) : (hostSetKeys k s).faultCode = s.faultCode := rfl
@[simp] theorem hostSetKeys_faultPc (k : Word) (s : State) : (hostSetKeys k s).faultPc = s.faultPc := rfl
@[simp] theorem hostSetKeys_config (k : Word) (s : State) : (hostSetKeys k s).config = s.config := rfl
@[simp] theorem hostSetKeys_host (k : Word) (s : State) : (hostSetKeys k s).host = s.host := rfl
@[simp] theorem hostSetKeys_loadOpen (k : Word) (s : State) : (hostSetKeys k s).loadOpen = s.loadOpen := rfl
@[simp] theorem hostSetKeys_draws (k : Word) (s : State) : (hostSetKeys k s).draws = s.draws := rfl

/-! ### skipIf -/

@[simp] theorem skipIf_pc (c : Bool) (s : State) : (skipIf c s).pc = if c then s.pc + 4 else s.pc + 2 := by
  cases c
  · rfl
  · simp [skipIf, BitVec.add_assoc]
@[simp] theorem skipIf_mem (c : Bool) (s : State) : (skipIf c s).mem = s.mem := by cases c <;> rfl
@[simp] theorem skipIf_V (c : Bool) (s : State) : (skipIf c s).V = s.V := by cases c <;> rfl
@[simp] theorem skipIf_I (c : Bool) (s : State) : (skipIf c s).I = s.I := by cases c <;> rfl
@[simp] theorem skipIf_stack (c : Bool) (s : State) : (skipIf c s).stack = s.stack := by cases c <;> rfl
@[simp] theorem skipIf_sp (c : Bool) (s : State) : (skipIf c s).sp = s.sp := by cases c <;> rfl
@[simp] theorem skipIf_DT (c : Bool) (s : State) : (skipIf c s).DT = s.DT := by cases c <;> rfl
@[simp] theorem skipIf_ST (c : Bool) (s : State) : (skipIf c s).ST = s.ST := by cases c <;> rfl
@[simp] theorem skipIf_disp (c : Bool) (s : State) : (skipIf c s).disp = s.disp := by cases c <;> rfl
@[simp] theorem skipIf_keys (c : Bool) (s : State) : (skipIf c s).keys = s.keys := by cases c <;> rfl
@[simp] theorem skipIf_wait (c : Bool) (s : State) : (skipIf c s).wait = s.wait := by cases c <;> rfl
@[simp] theorem skipIf_keyPrev (c : Bool) (s : State) : (skipIf c s).keyPrev = s.keyPrev := by cases c <;> rfl
@[simp] theorem skipIf_halted (c : Bool) (s : State) : (skipIf c s).halted = s.halted := by cases c <;> rfl
@[simp] theorem skipIf_faultCode (c : Bool) (s : State) : (skipIf c s).faultCode = s.faultCode := by cases c <;> rfl
@[simp] theorem skipIf_faultPc (c : Bool) (s : State) : (skipIf c s).faultPc = s.faultPc := by cases c <;> rfl
@[simp] theorem skipIf_config (c : Bool) (s : State) : (skipIf c s).config = s.config := by cases c <;> rfl
@[simp] theorem skipIf_host (c : Bool) (s : State) : (skipIf c s).host = s.host := by cases c <;> rfl
@[simp] theorem skipIf_loadOpen (c : Bool) (s : State) : (skipIf c s).loadOpen = s.loadOpen := by cases c <;> rfl
@[simp] theorem skipIf_draws (c : Bool) (s : State) : (skipIf c s).draws = s.draws := by cases c <;> rfl

/-! ### Register reads -/

theorem readV_writeV (x r : Reg) (v : Byte) (s : State) : readV (writeV x v s) r = if r = x then v else readV s r := by
  simp only [readV, writeV, Fin.getElem_fin, Vector.getElem_set, Fin.ext_iff]
  split <;> split <;> first | rfl | omega

@[simp] theorem readV_writeV_same (x : Reg) (v : Byte) (s : State) : readV (writeV x v s) x = v := by
  simp [readV_writeV]

@[simp] theorem readV_writeV_ne {x r : Reg} (h : r ≠ x) (v : Byte) (s : State) :
    readV (writeV x v s) r = readV s r := by simp [readV_writeV, h]

theorem readV_writeFlag (f : Bool) (r : Reg) (s : State) :
    readV (writeFlag f s) r = if r = flagReg then flagByte f else readV s r := readV_writeV _ _ _ _

theorem readV_writeResultFlag (x r : Reg) (q : Byte × Bool) (s : State) :
    readV (writeResultFlag x q s) r = if r = flagReg then flagByte q.2 else if r = x then q.1 else readV s r := by
  simp [writeResultFlag, readV_writeFlag, readV_writeV]

@[simp] theorem readV_advance (s : State) (r : Reg) : readV (advance s) r = readV s r := rfl
@[simp] theorem readV_setPc (a : Word) (s : State) (r : Reg) : readV (setPc a s) r = readV s r := rfl
@[simp] theorem readV_setI (a : Word) (s : State) (r : Reg) : readV (setI a s) r = readV s r := rfl
@[simp] theorem readV_raise (c : FaultCode) (s : State) (r : Reg) : readV (raise c s) r = readV s r := rfl
@[simp] theorem readV_beginCycle (s : State) (r : Reg) : readV (beginCycle s) r = readV s r := rfl
@[simp] theorem readV_skipIf (c : Bool) (s : State) (r : Reg) : readV (skipIf c s) r = readV s r := by cases c <;> rfl

/-! ### writeResultFlag changes nothing but V -/

@[simp] theorem writeResultFlag_mem (x : Reg) (q : Byte × Bool) (s : State) : (writeResultFlag x q s).mem = s.mem := rfl
@[simp] theorem writeResultFlag_I (x : Reg) (q : Byte × Bool) (s : State) : (writeResultFlag x q s).I = s.I := rfl
@[simp] theorem writeResultFlag_pc (x : Reg) (q : Byte × Bool) (s : State) : (writeResultFlag x q s).pc = s.pc := rfl
@[simp] theorem writeResultFlag_stack (x : Reg) (q : Byte × Bool) (s : State) : (writeResultFlag x q s).stack = s.stack := rfl
@[simp] theorem writeResultFlag_sp (x : Reg) (q : Byte × Bool) (s : State) : (writeResultFlag x q s).sp = s.sp := rfl
@[simp] theorem writeResultFlag_DT (x : Reg) (q : Byte × Bool) (s : State) : (writeResultFlag x q s).DT = s.DT := rfl
@[simp] theorem writeResultFlag_ST (x : Reg) (q : Byte × Bool) (s : State) : (writeResultFlag x q s).ST = s.ST := rfl
@[simp] theorem writeResultFlag_disp (x : Reg) (q : Byte × Bool) (s : State) : (writeResultFlag x q s).disp = s.disp := rfl
@[simp] theorem writeResultFlag_keys (x : Reg) (q : Byte × Bool) (s : State) : (writeResultFlag x q s).keys = s.keys := rfl
@[simp] theorem writeResultFlag_wait (x : Reg) (q : Byte × Bool) (s : State) : (writeResultFlag x q s).wait = s.wait := rfl
@[simp] theorem writeResultFlag_keyPrev (x : Reg) (q : Byte × Bool) (s : State) : (writeResultFlag x q s).keyPrev = s.keyPrev := rfl
@[simp] theorem writeResultFlag_halted (x : Reg) (q : Byte × Bool) (s : State) : (writeResultFlag x q s).halted = s.halted := rfl
@[simp] theorem writeResultFlag_faultCode (x : Reg) (q : Byte × Bool) (s : State) : (writeResultFlag x q s).faultCode = s.faultCode := rfl
@[simp] theorem writeResultFlag_faultPc (x : Reg) (q : Byte × Bool) (s : State) : (writeResultFlag x q s).faultPc = s.faultPc := rfl
@[simp] theorem writeResultFlag_config (x : Reg) (q : Byte × Bool) (s : State) : (writeResultFlag x q s).config = s.config := rfl
@[simp] theorem writeResultFlag_host (x : Reg) (q : Byte × Bool) (s : State) : (writeResultFlag x q s).host = s.host := rfl
@[simp] theorem writeResultFlag_loadOpen (x : Reg) (q : Byte × Bool) (s : State) : (writeResultFlag x q s).loadOpen = s.loadOpen := rfl
@[simp] theorem writeResultFlag_draws (x : Reg) (q : Byte × Bool) (s : State) : (writeResultFlag x q s).draws = s.draws := rfl

/-! ### Byte reads -/

@[simp] theorem readByte_writeV (x : Reg) (v : Byte) (s : State) (a : Nat) : readByte (writeV x v s) a = readByte s a := rfl
@[simp] theorem readByte_advance (s : State) (a : Nat) : readByte (advance s) a = readByte s a := rfl
@[simp] theorem readByte_setPc (w : Word) (s : State) (a : Nat) : readByte (setPc w s) a = readByte s a := rfl
@[simp] theorem readByte_setI (w : Word) (s : State) (a : Nat) : readByte (setI w s) a = readByte s a := rfl
@[simp] theorem readByte_raise (c : FaultCode) (s : State) (a : Nat) : readByte (raise c s) a = readByte s a := rfl
@[simp] theorem readByte_writeFlag (f : Bool) (s : State) (a : Nat) : readByte (writeFlag f s) a = readByte s a := rfl
@[simp] theorem readByte_loadBlock (bs : List Byte) (s : State) (a : Nat) : readByte (loadBlock bs s) a = readByte s a := rfl
@[simp] theorem readByte_showDrawn (r : Display × Bool) (s : State) (a : Nat) : readByte (showDrawn r s) a = readByte s a := rfl
@[simp] theorem readByte_beginCycle (s : State) (a : Nat) : readByte (beginCycle s) a = readByte s a := rfl
@[simp] theorem readByte_hostSetKeys (k : Word) (s : State) (a : Nat) : readByte (hostSetKeys k s) a = readByte s a := rfl
@[simp] theorem readByte_writeResultFlag (x : Reg) (q : Byte × Bool) (s : State) (a : Nat) :
    readByte (writeResultFlag x q s) a = readByte s a := rfl
@[simp] theorem readByte_skipIf (c : Bool) (s : State) (a : Nat) : readByte (skipIf c s) a = readByte s a := by
  cases c <;> rfl

/-! ### drawByte -/

@[simp] theorem drawByte_byte (s : State) : (drawByte s).1 = Config.randomByte s.draws := rfl
@[simp] theorem drawByte_mem (s : State) : (drawByte s).2.mem = s.mem := rfl
@[simp] theorem drawByte_V (s : State) : (drawByte s).2.V = s.V := rfl
@[simp] theorem drawByte_I (s : State) : (drawByte s).2.I = s.I := rfl
@[simp] theorem drawByte_pc (s : State) : (drawByte s).2.pc = s.pc := rfl
@[simp] theorem drawByte_stack (s : State) : (drawByte s).2.stack = s.stack := rfl
@[simp] theorem drawByte_sp (s : State) : (drawByte s).2.sp = s.sp := rfl
@[simp] theorem drawByte_DT (s : State) : (drawByte s).2.DT = s.DT := rfl
@[simp] theorem drawByte_ST (s : State) : (drawByte s).2.ST = s.ST := rfl
@[simp] theorem drawByte_disp (s : State) : (drawByte s).2.disp = s.disp := rfl
@[simp] theorem drawByte_keys (s : State) : (drawByte s).2.keys = s.keys := rfl
@[simp] theorem drawByte_wait (s : State) : (drawByte s).2.wait = s.wait := rfl
@[simp] theorem drawByte_keyPrev (s : State) : (drawByte s).2.keyPrev = s.keyPrev := rfl
@[simp] theorem drawByte_halted (s : State) : (drawByte s).2.halted = s.halted := rfl
@[simp] theorem drawByte_faultCode (s : State) : (drawByte s).2.faultCode = s.faultCode := rfl
@[simp] theorem drawByte_faultPc (s : State) : (drawByte s).2.faultPc = s.faultPc := rfl
@[simp] theorem drawByte_config (s : State) : (drawByte s).2.config = s.config := rfl
@[simp] theorem drawByte_host (s : State) : (drawByte s).2.host = s.host := rfl
@[simp] theorem drawByte_loadOpen (s : State) : (drawByte s).2.loadOpen = s.loadOpen := rfl
@[simp] theorem drawByte_draws (s : State) : (drawByte s).2.draws = s.draws + 1 := rfl
@[simp] theorem readV_drawByte (s : State) (r : Reg) : readV (drawByte s).2 r = readV s r := rfl
@[simp] theorem readByte_drawByte (s : State) (a : Nat) : readByte (drawByte s).2 a = readByte s a := rfl

/-- Two states with the same memory and parameters read alike. -/
theorem readByte_congr {s t : State} (hm : t.mem = s.mem) (hc : t.config = s.config) (a : Nat) :
    readByte t a = readByte s a := by simp [readByte, hm, hc]

end Sys2Proof.Machine
end

