-- ==== Sys2Proof/Laws/Access.lean ====
section
/-! SUPPORT. What the data accesses can do, once and for all (20_memory R61 to R63, R67): each either answers with
its whole effect, exactly when every address is allowed, or with the first fault. -/
namespace Sys2Proof.Machine

/-- A read inside the address space answers the byte there. -/
theorem memRead_ok {s : State} {a : Nat} (h : a ≤ 0xFFF) : memRead s a = .ok (readByte s a) := by
  simp [memRead]; omega

theorem memRead_error {s : State} {a : Nat} (h : 0xFFF < a) : memRead s a = .error .dataOutOfRange := by
  simp [memRead, h]

/-- A block read inside the address space answers the bytes there, lowest address first. -/
theorem readBytes_ok {s : State} : ∀ {n a : Nat}, n = 0 ∨ a + n ≤ 0x1000 →
    readBytes s a n = .ok ((List.range' a n).map (readByte s))
  | 0, _, _ => rfl
  | n + 1, a, h => by
    have h1 : readBytes s (a + 1) n = .ok ((List.range' (a + 1) n).map (readByte s)) := readBytes_ok (by omega)
    simp [readBytes, memRead_ok (s := s) (a := a) (by omega), h1, List.range'_succ]

/-- A block read that leaves the address space faults. -/
theorem readBytes_error {s : State} : ∀ {n a : Nat}, n ≠ 0 → 0x1000 < a + n →
    readBytes s a n = .error .dataOutOfRange
  | 0, _, h, _ => absurd rfl h
  | n + 1, a, _, h => by
    by_cases ha : 0xFFF < a
    · simp [readBytes, memRead_error ha]
    · rw [readBytes, memRead_ok (by omega)]
      simp [readBytes_error (s := s) (n := n) (a := a + 1) (by omega) (by omega)]

/-- A block read either answers the bytes or the one data fault, as its addresses say. -/
theorem readBytes_cases (s : State) (a n : Nat) :
    ((n = 0 ∨ a + n ≤ 0x1000) ∧ readBytes s a n = .ok ((List.range' a n).map (readByte s))) ∨
      (n ≠ 0 ∧ 0x1000 < a + n ∧ readBytes s a n = .error .dataOutOfRange) := by
  by_cases h : n = 0 ∨ a + n ≤ 0x1000
  · exact .inl ⟨h, readBytes_ok h⟩
  · exact .inr ⟨by omega, by omega, readBytes_error (by omega) (by omega)⟩

/-- The state with a block of bytes stored. -/
def storeBlock (a : Nat) (bs : List Byte) (s : State) : State := { s with mem := memSetRun s.config.font s.mem a bs }

/-- A block write in 0x200..0xFFF stores every byte. -/
theorem writeBytes_ok : ∀ {bs : List Byte} {a : Nat} {s : State}, bs = [] ∨ (0x200 ≤ a ∧ a + bs.length ≤ 0x1000) →
    writeBytes a bs s = .ok (storeBlock a bs s)
  | [], _, _, _ => rfl
  | b :: bs, a, s, h => by
    simp only [List.length_cons, List.cons_ne_nil, false_or] at h
    have h1 : ∀ t, writeBytes (a + 1) bs t = .ok (storeBlock (a + 1) bs t) := fun t => writeBytes_ok (by
      rcases bs with _ | ⟨c, bs⟩
      · exact .inl rfl
      · simp only [List.length_cons] at h ⊢; right; omega)
    simp [writeBytes, memWrite, show ¬ 0xFFF < a by omega, show ¬ a < 0x200 by omega, h1, storeBlock, memSetRun]

/-- A block write that starts below 0x200 faults, and stores nothing. -/
theorem writeBytes_reserved {bs : List Byte} {a : Nat} {s : State} (hb : bs ≠ []) (h : a < 0x200) :
    writeBytes a bs s = .error .reservedWrite := by
  rcases bs with _ | ⟨b, bs⟩
  · exact absurd rfl hb
  · simp [writeBytes, memWrite, show ¬ 0xFFF < a by omega, h]

/-- A block write from 0x200 or above that leaves the address space faults. -/
theorem writeBytes_range : ∀ {bs : List Byte} {a : Nat} {s : State}, bs ≠ [] → 0x200 ≤ a → 0x1000 < a + bs.length →
    writeBytes a bs s = .error .dataOutOfRange
  | [], _, _, h, _, _ => absurd rfl h
  | b :: bs, a, s, _, hl, h => by
    simp only [List.length_cons] at h
    by_cases ha : 0xFFF < a
    · simp [writeBytes, memWrite, ha]
    · have hb : bs ≠ [] := by rintro rfl; simp at h; omega
      simp [writeBytes, memWrite, ha, show ¬ a < 0x200 by omega,
        writeBytes_range (bs := bs) (a := a + 1) hb (by omega) (by omega)]

/-- A block write either stores every byte or answers one of the two data faults, as its addresses say. -/
theorem writeBytes_cases {bs : List Byte} (hb : bs ≠ []) (a : Nat) (s : State) :
    (0x200 ≤ a ∧ a + bs.length ≤ 0x1000 ∧ writeBytes a bs s = .ok (storeBlock a bs s)) ∨
      (a < 0x200 ∧ writeBytes a bs s = .error .reservedWrite) ∨
      (0x200 ≤ a ∧ 0x1000 < a + bs.length ∧ writeBytes a bs s = .error .dataOutOfRange) := by
  by_cases h1 : a < 0x200
  · exact .inr (.inl ⟨h1, writeBytes_reserved hb h1⟩)
  · by_cases h2 : a + bs.length ≤ 0x1000
    · exact .inl ⟨by omega, h2, writeBytes_ok (.inr ⟨by omega, h2⟩)⟩
    · exact .inr (.inr ⟨by omega, by omega, writeBytes_range hb (by omega) (by omega)⟩)

/-- What a stored block reads as. -/
theorem readByte_storeBlock {a : Nat} {bs : List Byte} {s : State} (hw : Memory.wf s.config.font s.mem = true)
    (h : a + bs.length ≤ 0x1000) (b : Nat) :
    readByte (storeBlock a bs s) b = if h : a ≤ b ∧ b - a < bs.length then bs[b - a]'h.2 else readByte s b :=
  memGet_memSetRun hw h b

/-- `complete` answers a next state: the one computed, or the fault taken on the state given. -/
theorem complete_cases (s : State) (r : Except FaultCode State) :
    (∃ t, r = .ok t ∧ complete s r = .next t) ∨ (∃ c, r = .error c ∧ complete s r = .next (raise c s)) := by
  cases r with
  | ok t => exact .inl ⟨t, rfl, rfl⟩
  | error c => exact .inr ⟨c, rfl, rfl⟩

@[simp] theorem complete_ok (s t : State) : complete s (.ok t) = .next t := rfl
@[simp] theorem complete_error (s : State) (c : FaultCode) : complete s (.error c) = .next (raise c s) := rfl

/-! ### storeBlock -/

@[simp] theorem storeBlock_mem (a : Nat) (bs : List Byte) (s : State) :
    (storeBlock a bs s).mem = memSetRun s.config.font s.mem a bs := rfl
@[simp] theorem storeBlock_V (a : Nat) (bs : List Byte) (s : State) : (storeBlock a bs s).V = s.V := rfl
@[simp] theorem storeBlock_I (a : Nat) (bs : List Byte) (s : State) : (storeBlock a bs s).I = s.I := rfl
@[simp] theorem storeBlock_pc (a : Nat) (bs : List Byte) (s : State) : (storeBlock a bs s).pc = s.pc := rfl
@[simp] theorem storeBlock_stack (a : Nat) (bs : List Byte) (s : State) : (storeBlock a bs s).stack = s.stack := rfl
@[simp] theorem storeBlock_sp (a : Nat) (bs : List Byte) (s : State) : (storeBlock a bs s).sp = s.sp := rfl
@[simp] theorem storeBlock_DT (a : Nat) (bs : List Byte) (s : State) : (storeBlock a bs s).DT = s.DT := rfl
@[simp] theorem storeBlock_ST (a : Nat) (bs : List Byte) (s : State) : (storeBlock a bs s).ST = s.ST := rfl
@[simp] theorem storeBlock_disp (a : Nat) (bs : List Byte) (s : State) : (storeBlock a bs s).disp = s.disp := rfl
@[simp] theorem storeBlock_keys (a : Nat) (bs : List Byte) (s : State) : (storeBlock a bs s).keys = s.keys := rfl
@[simp] theorem storeBlock_wait (a : Nat) (bs : List Byte) (s : State) : (storeBlock a bs s).wait = s.wait := rfl
@[simp] theorem storeBlock_keyPrev (a : Nat) (bs : List Byte) (s : State) : (storeBlock a bs s).keyPrev = s.keyPrev := rfl
@[simp] theorem storeBlock_halted (a : Nat) (bs : List Byte) (s : State) : (storeBlock a bs s).halted = s.halted := rfl
@[simp] theorem storeBlock_faultCode (a : Nat) (bs : List Byte) (s : State) : (storeBlock a bs s).faultCode = s.faultCode := rfl
@[simp] theorem storeBlock_faultPc (a : Nat) (bs : List Byte) (s : State) : (storeBlock a bs s).faultPc = s.faultPc := rfl
@[simp] theorem storeBlock_config (a : Nat) (bs : List Byte) (s : State) : (storeBlock a bs s).config = s.config := rfl
@[simp] theorem storeBlock_host (a : Nat) (bs : List Byte) (s : State) : (storeBlock a bs s).host = s.host := rfl
@[simp] theorem storeBlock_loadOpen (a : Nat) (bs : List Byte) (s : State) : (storeBlock a bs s).loadOpen = s.loadOpen := rfl
@[simp] theorem storeBlock_draws (a : Nat) (bs : List Byte) (s : State) : (storeBlock a bs s).draws = s.draws := rfl
@[simp] theorem readV_storeBlock (a : Nat) (bs : List Byte) (s : State) (r : Reg) :
    readV (storeBlock a bs s) r = readV s r := rfl

end Sys2Proof.Machine
end

