-- ==== Sys2Proof/Laws/Decode.lean ====
section
/-! SUPPORT. The fields of a word in each layout (30_encoding R81, R83), and each layout as a number. -/
namespace Sys2Proof

theorem word_eq {a b : Word} (h : a.toNat = b.toNat) : a = b := BitVec.eq_of_toNat_eq h

@[simp] theorem regBits_toNat (x : Reg) : (regBits x).toNat = x.val := rfl

theorem wordA_toNat (op : BitVec 4) (nnn : Addr12) : (wordA op nnn).toNat = 0x1000 * op.toNat + nnn.toNat := by
  have h : (wordA op nnn).toNat = op.toNat <<< 12 ||| nnn.toNat := BitVec.toNat_append op nnn
  rw [h, ← Nat.shiftLeft_add_eq_or_of_lt nnn.isLt, Nat.shiftLeft_eq]; omega

theorem wordXB_toNat (op : BitVec 4) (x : Reg) (nn : Byte) :
    (wordXB op x nn).toNat = 0x1000 * op.toNat + 0x100 * x.val + nn.toNat := by
  have h : (wordXB op x nn).toNat = (op.toNat <<< 4 ||| x.val) <<< 8 ||| nn.toNat := by
    rw [wordXB, BitVec.toNat_append, BitVec.toNat_append]; rfl
  rw [h, ← Nat.shiftLeft_add_eq_or_of_lt nn.isLt,
    ← Nat.shiftLeft_add_eq_or_of_lt (show x.val < 2 ^ 4 from x.isLt), Nat.shiftLeft_eq, Nat.shiftLeft_eq]
  omega

theorem wordXYN_toNat (op : BitVec 4) (x y : Reg) (n : Nibble) :
    (wordXYN op x y n).toNat = 0x1000 * op.toNat + 0x100 * x.val + 0x10 * y.val + n.toNat := by
  have h : (wordXYN op x y n).toNat = ((op.toNat <<< 4 ||| x.val) <<< 4 ||| y.val) <<< 4 ||| n.toNat := by
    rw [wordXYN, BitVec.toNat_append, BitVec.toNat_append, BitVec.toNat_append]; rfl
  rw [h, ← Nat.shiftLeft_add_eq_or_of_lt n.isLt,
    ← Nat.shiftLeft_add_eq_or_of_lt (show y.val < 2 ^ 4 from y.isLt),
    ← Nat.shiftLeft_add_eq_or_of_lt (show x.val < 2 ^ 4 from x.isLt),
    Nat.shiftLeft_eq, Nat.shiftLeft_eq, Nat.shiftLeft_eq]
  omega

theorem fieldOp_toNat (w : Word) : (fieldOp w).toNat = w.toNat / 0x1000 := by
  have := w.isLt
  simp only [fieldOp, BitVec.extractLsb'_toNat, Nat.shiftRight_eq_div_pow]; omega

theorem fieldX_val (w : Word) : (fieldX w).val = w.toNat / 0x100 % 16 := by
  show (w.extractLsb' 8 4).toNat = _
  simp only [BitVec.extractLsb'_toNat, Nat.shiftRight_eq_div_pow]

theorem fieldY_val (w : Word) : (fieldY w).val = w.toNat / 0x10 % 16 := by
  show (w.extractLsb' 4 4).toNat = _
  simp only [BitVec.extractLsb'_toNat, Nat.shiftRight_eq_div_pow]

theorem fieldN_toNat (w : Word) : (fieldN w).toNat = w.toNat % 16 := by
  simp only [fieldN, BitVec.extractLsb'_toNat, Nat.shiftRight_eq_div_pow]; omega

theorem fieldNN_toNat (w : Word) : (fieldNN w).toNat = w.toNat % 0x100 := by
  simp only [fieldNN, BitVec.extractLsb'_toNat, Nat.shiftRight_eq_div_pow]; omega

theorem fieldNNN_toNat (w : Word) : (fieldNNN w).toNat = w.toNat % 0x1000 := by
  simp only [fieldNNN, BitVec.extractLsb'_toNat, Nat.shiftRight_eq_div_pow]; omega

/-! ### The fields of each layout -/

section
variable (op : BitVec 4) (x y : Reg) (n : Nibble) (nn : Byte) (nnn : Addr12)

@[simp] theorem fieldOp_wordA : fieldOp (wordA op nnn) = op := by
  apply BitVec.eq_of_toNat_eq; rw [fieldOp_toNat, wordA_toNat]; have := nnn.isLt; omega
@[simp] theorem fieldNNN_wordA : fieldNNN (wordA op nnn) = nnn := by
  apply BitVec.eq_of_toNat_eq; rw [fieldNNN_toNat, wordA_toNat]; have := nnn.isLt; omega

@[simp] theorem fieldOp_wordXB : fieldOp (wordXB op x nn) = op := by
  apply BitVec.eq_of_toNat_eq; rw [fieldOp_toNat, wordXB_toNat]; have := nn.isLt; have := x.isLt; omega
@[simp] theorem fieldX_wordXB : fieldX (wordXB op x nn) = x := by
  apply Fin.ext; rw [fieldX_val, wordXB_toNat]; have := nn.isLt; have := x.isLt; omega
@[simp] theorem fieldNN_wordXB : fieldNN (wordXB op x nn) = nn := by
  apply BitVec.eq_of_toNat_eq; rw [fieldNN_toNat, wordXB_toNat]; have := nn.isLt; omega

@[simp] theorem fieldOp_wordXYN : fieldOp (wordXYN op x y n) = op := by
  apply BitVec.eq_of_toNat_eq; rw [fieldOp_toNat, wordXYN_toNat]
  have := n.isLt; have := x.isLt; have := y.isLt; omega
@[simp] theorem fieldX_wordXYN : fieldX (wordXYN op x y n) = x := by
  apply Fin.ext; rw [fieldX_val, wordXYN_toNat]; have := n.isLt; have := x.isLt; have := y.isLt; omega
@[simp] theorem fieldY_wordXYN : fieldY (wordXYN op x y n) = y := by
  apply Fin.ext; rw [fieldY_val, wordXYN_toNat]; have := n.isLt; have := y.isLt; omega
@[simp] theorem fieldN_wordXYN : fieldN (wordXYN op x y n) = n := by
  apply BitVec.eq_of_toNat_eq; rw [fieldN_toNat, wordXYN_toNat]; have := n.isLt; omega
end

/-! ### A word from its fields -/

theorem wordA_fields (w : Word) : wordA (fieldOp w) (fieldNNN w) = w := by
  apply word_eq; rw [wordA_toNat, fieldOp_toNat, fieldNNN_toNat]; omega

theorem wordXB_fields (w : Word) : wordXB (fieldOp w) (fieldX w) (fieldNN w) = w := by
  apply word_eq; rw [wordXB_toNat, fieldOp_toNat, fieldX_val, fieldNN_toNat]; omega

theorem wordXYN_fields (w : Word) : wordXYN (fieldOp w) (fieldX w) (fieldY w) (fieldN w) = w := by
  apply word_eq; rw [wordXYN_toNat, fieldOp_toNat, fieldX_val, fieldY_val, fieldN_toNat]; omega

/-- The last arm of `decode` is family 0xF: a nibble that is none of 0x0 to 0xE is 0xF. -/
theorem nibble_last {v : BitVec 4} (h : v.toNat ∉ List.range 15) : v = 0xF#4 := by
  apply BitVec.eq_of_toNat_eq
  have := v.isLt
  simp only [List.mem_range, BitVec.toNat_ofNat] at h ⊢; omega

/-! ### Memory order -/

/-- Joining the stored bytes of a word gives the word back (20_memory R64). -/
theorem joinBytes_stored (w : Word) : joinBytes (w.extractLsb' 8 8) (w.extractLsb' 0 8) = w := by
  apply word_eq
  have h : (joinBytes (w.extractLsb' 8 8) (w.extractLsb' 0 8)).toNat =
      (w.extractLsb' 8 8).toNat <<< 8 ||| (w.extractLsb' 0 8).toNat := BitVec.toNat_append _ _
  rw [h, ← Nat.shiftLeft_add_eq_or_of_lt (w.extractLsb' 0 8).isLt, Nat.shiftLeft_eq]
  simp only [BitVec.extractLsb'_toNat, Nat.shiftRight_eq_div_pow]
  have := w.isLt; omega

theorem joinBytes_toNat (high low : Byte) : (joinBytes high low).toNat = 0x100 * high.toNat + low.toNat := by
  have h : (joinBytes high low).toNat = high.toNat <<< 8 ||| low.toNat := BitVec.toNat_append _ _
  rw [h, ← Nat.shiftLeft_add_eq_or_of_lt low.isLt, Nat.shiftLeft_eq]; omega

end Sys2Proof
end

