-- ==== Sys2Proof/Laws/Cycle.lean ====
section
/-! SUPPORT. What the stack, a fetch, a cycle, a host operation and a step can do (10_state R37, 20_memory R64 to R66,
30_encoding R91, 70_reset R341, R343, R344). -/
namespace Sys2Proof.Machine

/-! ### Stack -/

theorem popStack_error {s : State} (h : s.sp.val = 0) : popStack s = .error .stackUnderflow := by
  simp [popStack, h]

theorem popStack_ok {s : State} (h : s.sp.val ≠ 0) :
    popStack s = .ok (s.stack[s.sp.val - 1]'(by omega), { s with sp := ⟨s.sp.val - 1, by omega⟩ }) := by
  simp [popStack, h]

theorem pushStack_error {a : Word} {s : State} (h : s.sp.val = 16) : pushStack a s = .error .stackOverflow := by
  simp [pushStack, h]

theorem pushStack_ok {a : Word} {s : State} (h : s.sp.val < 16) :
    pushStack a s = .ok { s with stack := s.stack.set s.sp.val a, sp := ⟨s.sp.val + 1, by omega⟩ } := by
  simp [pushStack, h]

/-! ### Fetch -/

/-- The fetched word as a number: the byte at the lower address is the high byte (R64). -/
@[simp] theorem fetchWord_toNat (s : State) (a : Nat) :
    (fetchWord s a).toNat = 0x100 * (readByte s a).toNat + (readByte s (a + 1)).toNat := joinBytes_toNat _ _

/-- A word with the number of the bytes at an address is the word fetched there. -/
theorem eq_fetchWord {s : State} {a : Nat} {w : Word}
    (h : w.toNat = 0x100 * (readByte s a).toNat + (readByte s (a + 1)).toNat) : w = fetchWord s a :=
  BitVec.eq_of_toNat_eq (h.trans (fetchWord_toNat s a).symm)

theorem fetch_outOfRange {s : State} (h : 0xFFE < s.pc.toNat) : fetch s = .error .fetchOutOfRange := by
  simp [fetch, h]

theorem fetch_misaligned {s : State} (h : s.pc.toNat ≤ 0xFFE) (ho : s.pc.toNat % 2 = 1) :
    fetch s = .error .misalignedFetch := by
  simp [fetch, ho]; omega

theorem fetch_ok {s : State} (h : s.pc.toNat ≤ 0xFFE) (he : s.pc.toNat % 2 = 0) :
    fetch s = .ok (fetchWord s s.pc.toNat) := by
  simp [fetch, he]; omega

/-- A fetched instruction was decoded from the word at `pc`, and the fetch checks passed. -/
theorem fetchInstr_ok {s : State} {i : Instr} (h : fetchInstr s = .ok i) :
    s.pc.toNat ≤ 0xFFE ∧ s.pc.toNat % 2 = 0 ∧ decode s.config.strict59 (fetchWord s s.pc.toNat) = .ok i := by
  unfold fetchInstr at h
  by_cases h1 : 0xFFE < s.pc.toNat
  · simp [fetch_outOfRange h1] at h
  · by_cases h2 : s.pc.toNat % 2 = 1
    · simp [fetch_misaligned (Nat.le_of_not_lt h1) h2] at h
    · rw [fetch_ok (Nat.le_of_not_lt h1) (by omega)] at h
      dsimp only at h
      split at h
      · next j hj => cases h; exact ⟨by omega, by omega, hj⟩
      · cases h

theorem fetchInstr_of_decode {s : State} {i : Instr} (h : s.pc.toNat ≤ 0xFFE) (he : s.pc.toNat % 2 = 0)
    (hd : decode s.config.strict59 (fetchWord s s.pc.toNat) = .ok i) : fetchInstr s = .ok i := by
  simp [fetchInstr, fetch_ok h he, hd]

theorem fetchInstr_of_illegal {s : State} {e : DecodeError} (h : s.pc.toNat ≤ 0xFFE) (he : s.pc.toNat % 2 = 0)
    (hd : decode s.config.strict59 (fetchWord s s.pc.toNat) = .error e) : fetchInstr s = .error .illegalOpcode := by
  simp [fetchInstr, fetch_ok h he, hd]

/-- A fetch fault is never the code of no fault. -/
theorem fetchInstr_error_ne_none {s : State} {c : FaultCode} (h : fetchInstr s = .error c) : c ≠ .none := by
  unfold fetchInstr fetch at h
  by_cases h1 : 0xFFE < s.pc.toNat
  · simp [h1] at h; simp [← h]
  · by_cases h2 : s.pc.toNat % 2 = 1
    · simp [h1, h2] at h; simp [← h]
    · simp only [h1, h2, if_false] at h
      split at h
      · cases h
      · cases h; simp

/-! ### Cycle -/

theorem cycle_halted {s : State} (h : s.halted = true) : cycle s = .next s := by simp [cycle, h]

theorem cycle_waiting {s : State} {x : Reg} (h : s.halted = false) (hw : s.wait = some x) :
    cycle s = .next (waitStep x (beginCycle s)) := by simp [cycle, h, hw]

theorem cycle_fault {s : State} {c : FaultCode} (h : s.halted = false) (hw : s.wait = none)
    (hf : fetchInstr (beginCycle s) = .error c) : cycle s = .next (raise c (beginCycle s)) := by
  simp [cycle, h, hw, hf]

theorem cycle_exec {s : State} {i : Instr} (h : s.halted = false) (hw : s.wait = none)
    (hf : fetchInstr (beginCycle s) = .ok i) : cycle s = exec i (beginCycle s) := by
  simp [cycle, h, hw, hf]

/-- Everything a cycle can do (R91). -/
theorem cycle_cases (s : State) :
    (s.halted = true ∧ cycle s = .next s) ∨
    (s.halted = false ∧ ∃ x, s.wait = some x ∧ cycle s = .next (waitStep x (beginCycle s))) ∨
    (s.halted = false ∧ s.wait = none ∧ ∃ c, fetchInstr (beginCycle s) = .error c ∧
      cycle s = .next (raise c (beginCycle s))) ∨
    (s.halted = false ∧ s.wait = none ∧ ∃ i, fetchInstr (beginCycle s) = .ok i ∧ cycle s = exec i (beginCycle s)) := by
  cases h : s.halted with
  | true => exact .inl ⟨rfl, cycle_halted h⟩
  | false =>
    cases hw : s.wait with
    | some x => exact .inr (.inl ⟨rfl, x, rfl, cycle_waiting h hw⟩)
    | none =>
      cases hf : fetchInstr (beginCycle s) with
      | error c => exact .inr (.inr (.inl ⟨rfl, rfl, c, rfl, cycle_fault h hw hf⟩))
      | ok i => exact .inr (.inr (.inr ⟨rfl, rfl, i, rfl, cycle_exec h hw hf⟩))

/-- Everything a waiting step can do (45_keys_timers R224). -/
theorem waitStep_cases (x : Reg) (s : State) :
    (∃ k, lowestNewKey s = some k ∧
      waitStep x s = writeV x (BitVec.ofNat 8 k) { s with keyPrev := s.keys, wait := none }) ∨
    (lowestNewKey s = none ∧ waitStep x s = { s with keyPrev := s.keys }) := by
  unfold waitStep
  cases h : lowestNewKey s with
  | some k => exact .inl ⟨k, rfl, rfl⟩
  | none => exact .inr ⟨rfl, rfl⟩

/-! ### Load, and one step -/

/-- Everything a `Load` can do (70_reset R341). -/
theorem hostLoad_cases (rom : List Byte) (s : State) :
    ((s.loadOpen = false ∨ s.halted = true) ∧ hostLoad rom s = .refused .loadNotAdmitted) ∨
    (s.loadOpen = true ∧ s.halted = false ∧ 3584 < rom.length ∧
      hostLoad rom s = .next (raise .romTooLarge { s with loadOpen := false })) ∨
    (s.loadOpen = true ∧ s.halted = false ∧ rom.length ≤ 3584 ∧
      hostLoad rom s = .next (storeBlock 0x200 rom { s with loadOpen := false })) := by
  cases h1 : s.loadOpen with
  | false => exact .inl ⟨.inl rfl, by simp [hostLoad, h1]⟩
  | true =>
    cases h2 : s.halted with
    | true => exact .inl ⟨.inr rfl, by simp [hostLoad, h2]⟩
    | false =>
      by_cases h3 : 3584 < rom.length
      · exact .inr (.inl ⟨rfl, rfl, h3, by simp [hostLoad, h1, h2, maxRom, h3]⟩)
      · refine .inr (.inr ⟨rfl, rfl, by omega, ?_⟩)
        simp [hostLoad, h1, h2, maxRom, h3, storeBlock, loadBase]

/-- `nextOp` takes an operation off the host's list and touches nothing else. -/
theorem nextOp_cases (s : State) :
    (s.host = [] ∧ nextOp s = (.cycle, s)) ∨
      ∃ op rest, s.host = op :: rest ∧ nextOp s = (op, { s with host := rest }) := by
  unfold nextOp
  cases h : s.host with
  | nil => exact .inl ⟨rfl, rfl⟩
  | cons op rest => exact .inr ⟨op, rest, rfl, rfl⟩

/-- Everything a step can do: the host's next operation, performed. -/
theorem step_perform {s s0 : State} {op : HostOp} (h : nextOp s = (op, s0)) : step s = perform op s0 := by
  simp [step, h]

end Sys2Proof.Machine
end

