-- ==== Sys2Proof/Laws/Operands.lean ====
section
/-! SUPPORT. What each operand form computes, in numbers (43_index_memory R182 to R185, 44_display R201,
45_keys_timers R224). -/
namespace Sys2Proof.Machine

@[simp] theorem zext12_toNat (a : Addr12) : (zext12 a).toNat = a.toNat := by
  simp [zext12]; omega

@[simp] theorem zext8_toNat (b : Byte) : (zext8 b).toNat = b.toNat := by
  simp [zext8]; omega

/-- The glyph address is 0x050 + 5 times the low nibble. -/
theorem glyphAddr_toNat (v : Byte) : (glyphAddr v).toNat = 0x050 + 5 * (v.toNat % 16) := by
  have h : (v &&& 0x0F#8).toNat = v.toNat % 16 := by
    rw [BitVec.toNat_and]; exact Nat.and_two_pow_sub_one_eq_mod v.toNat 4
  simp only [glyphAddr, BitVec.toNat_add, BitVec.toNat_mul, zext8_toNat, h, BitVec.toNat_ofNat]
  omega

@[simp] theorem bcdDigits_length (v : Byte) : (bcdDigits v).length = 3 := rfl

@[simp] theorem regBlock_length (s : State) (x : Reg) : (regBlock s x).length = x.val + 1 := by
  simp [regBlock]

/-- Byte `k` of a register block is Vk. -/
theorem regBlock_getElem (s : State) (x : Reg) (k : Nat) (h : k < (regBlock s x).length) :
    (regBlock s x)[k] = readV s ⟨k, by have := regBlock_length s x; omega⟩ := by
  simp [regBlock, readV]

/-- What the registers hold after a block of bytes is put in from number `k` upwards. -/
theorem setRegsFrom_getElem : ∀ (bs : List Byte) (V : Vector Byte 16) (k r : Nat) (hr : r < 16),
    (setRegsFrom V k bs)[r] = if h : k ≤ r ∧ r - k < bs.length then bs[r - k]'h.2 else V[r]
  | [], V, k, r, hr => by simp [setRegsFrom]
  | b :: bs, V, k, r, hr => by
    by_cases hk : k < 16
    · simp only [setRegsFrom, dif_pos hk]
      rw [setRegsFrom_getElem bs _ (k + 1) r hr]
      by_cases h1 : k + 1 ≤ r ∧ r - (k + 1) < bs.length
      · have h2 : k ≤ r ∧ r - k < (b :: bs).length := by simp only [List.length_cons]; omega
        have h3 : r - k = r - (k + 1) + 1 := by omega
        rw [dif_pos h1, dif_pos h2]; simp [h3]
      · rw [dif_neg h1, Vector.getElem_set]
        by_cases hrk : k = r
        · subst hrk; simp
        · have h2 : ¬ (k ≤ r ∧ r - k < (b :: bs).length) := by simp only [List.length_cons]; omega
          rw [if_neg hrk, dif_neg h2]
    · simp only [setRegsFrom, dif_neg hk]
      rw [dif_neg (by omega)]

/-- What a register reads after a register load. -/
theorem readV_loadBlock (bs : List Byte) (s : State) (r : Reg) :
    readV (loadBlock bs s) r = if h : r.val < bs.length then bs[r.val] else readV s r := by
  simp only [readV, loadBlock, Fin.getElem_fin]
  rw [setRegsFrom_getElem bs s.V 0 r.val r.isLt]
  simp

/-- The key number is the register's value when it is at most 15, and the fault otherwise. -/
theorem keyNumber_ok {s : State} {x : Reg} (h : (readV s x).toNat ≤ 15) : keyNumber s x = .ok (readV s x).toNat := by
  simp [keyNumber]; omega

theorem keyNumber_error {s : State} {x : Reg} (h : 15 < (readV s x).toNat) :
    keyNumber s x = .error .keyIndexOutOfRange := by
  simp [keyNumber, h]

/-- A sprite row's bit 7 stands in column `vx`, bit 0 in column `vx + 7`. -/
theorem spriteMask_getLsbD (vx : Nat) (b : Byte) (c : Nat) :
    (spriteMask vx b).getLsbD c = (decide (c < 64 ∧ vx ≤ c ∧ c < vx + 8) && b.getLsbD (7 - (c - vx))) := by
  simp only [spriteMask, BitVec.getLsbD_shiftLeft, BitVec.getLsbD_setWidth, BitVec.getLsbD_reverse,
    BitVec.getMsbD_eq_getLsbD]
  by_cases h : c < 64 ∧ vx ≤ c ∧ c < vx + 8
  · simp [h, show ¬ c < vx by omega, show c - vx < 64 by omega, show c - vx < 8 by omega]
  · by_cases h1 : c < 64 <;> by_cases h2 : vx ≤ c
    · simp [h, show ¬ c - vx < 8 by omega]
    · simp [h, show c < vx by omega]
    · simp [h1]
    · simp [h1]

/-- The lowest newly pressed key: it is newly pressed, and none below it is. -/
theorem lowestNewKey_some {s : State} {k : Nat} :
    lowestNewKey s = some k ↔ k < 16 ∧ newlyPressed s k = true ∧ ∀ j, j < k → newlyPressed s j = false := by
  simp only [lowestNewKey, List.find?_eq_some_iff_getElem]
  constructor
  · rintro ⟨hp, i, hi, hik, hall⟩
    simp only [List.length_range] at hi
    simp only [List.getElem_range] at hik hall
    subst hik
    exact ⟨hi, hp, fun j hj => by simpa using hall j hj⟩
  · rintro ⟨hk, hp, hall⟩
    exact ⟨hp, k, by simpa using hk, by simp, fun j hj => by simpa using hall j hj⟩

/-- No key is newly pressed. -/
theorem lowestNewKey_none {s : State} : lowestNewKey s = none ↔ ∀ k, k < 16 → newlyPressed s k = false := by
  simp [lowestNewKey]

end Sys2Proof.Machine
end

