-- ==== Sys2Proof/Laws/Display.lean ====
section
/-! SUPPORT. What drawing a sprite does to each pixel and to the collision flag (44_display R201). -/
namespace Sys2Proof.Machine

/-- The bit sprite rows `bs`, drawn from row `py` at column `vx`, put on the pixel in row `r` and column `c`. -/
def rowsBit (vx py : Nat) (bs : List Byte) (r c : Nat) : Bool :=
  if h : py ≤ r ∧ r - py < bs.length then (spriteMask vx bs[r - py]).getLsbD c else false

theorem rowsBit_cons (vx py : Nat) (b : Byte) (bs : List Byte) (r c : Nat) :
    rowsBit vx py (b :: bs) r c = if r = py then (spriteMask vx b).getLsbD c else rowsBit vx (py + 1) bs r c := by
  unfold rowsBit
  by_cases hr : r = py
  · subst hr; simp
  · rw [if_neg hr]
    by_cases h : py + 1 ≤ r ∧ r - (py + 1) < bs.length
    · have h2 : py ≤ r ∧ r - py < (b :: bs).length := by simp only [List.length_cons]; omega
      have h3 : r - py = r - (py + 1) + 1 := by omega
      rw [dif_pos h, dif_pos h2]; simp [h3]
    · have h2 : ¬ (py ≤ r ∧ r - py < (b :: bs).length) := by simp only [List.length_cons]; omega
      rw [dif_neg h, dif_neg h2]

theorem pixel_of_ge {d : Display} {r : Nat} (h : 32 ≤ r) (c : Nat) : pixel d r c = false := by
  simp [pixel]; omega

theorem pixel_of_col_ge {d : Display} {c : Nat} (h : 64 ≤ c) (r : Nat) : pixel d r c = false := by
  unfold pixel
  split
  · exact BitVec.getLsbD_of_ge _ _ h
  · rfl

/-- Two buffers with the same pixels are the same buffer. -/
theorem display_ext {d e : Display} (h : ∀ r c, r < 32 → c < 64 → pixel d r c = pixel e r c) : d = e := by
  apply Vector.ext
  intro r hr
  apply BitVec.eq_of_getLsbD_eq
  intro c hc
  simpa [pixel, hr] using h r c hr hc

theorem pixel_blank (r c : Nat) : pixel blankDisplay r c = false := by
  simp [pixel, blankDisplay]

/-- One sprite row toggles exactly the pixels its bits name, in its own display row. -/
theorem drawRow_pixel (vx py : Nat) (b : Byte) (acc : Display × Bool) (r c : Nat) :
    pixel (drawRow vx py b acc).1 r c =
      (pixel acc.1 r c ^^ (decide (r = py ∧ r < 32) && (spriteMask vx b).getLsbD c)) := by
  unfold drawRow
  by_cases hp : py < 32
  · rw [dif_pos hp]
    by_cases hr : r < 32
    · by_cases he : py = r
      · subst he; simp [pixel, hr]
      · simp [pixel, hr, he, Ne.symm he]
    · simp [pixel, hr]
  · rw [dif_neg hp]
    by_cases hr : r = py ∧ r < 32
    · omega
    · simp [hr]

/-- The flag of one sprite row: as before, or a lit pixel of its display row is under one of its bits. -/
theorem drawRow_hit (vx py : Nat) (b : Byte) (acc : Display × Bool) :
    (drawRow vx py b acc).2 = true ↔
      acc.2 = true ∨ ∃ c, py < 32 ∧ pixel acc.1 py c = true ∧ (spriteMask vx b).getLsbD c = true := by
  unfold drawRow
  by_cases hp : py < 32
  · rw [dif_pos hp]
    simp only [Bool.or_eq_true, bne_iff_ne, ne_eq, pixel, hp, dif_pos, true_and]
    refine or_congr Iff.rfl ⟨fun h => ?_, ?_⟩
    · by_contra hn
      refine h (BitVec.eq_of_getLsbD_eq fun c _ => ?_)
      rw [BitVec.getLsbD_and, BitVec.getLsbD_zero]
      simp only [not_exists, not_and] at hn
      have := hn c
      cases hq : (acc.1[py]).getLsbD c <;> simp_all
    · rintro ⟨c, h1, h2⟩ h0
      have := congrArg (fun v => v.getLsbD c) h0
      simp [h1, h2] at this
  · rw [dif_neg hp]; simp [hp]

/-- A sprite toggles exactly the pixels its bits name. -/
theorem drawRows_pixel (vx : Nat) : ∀ (bs : List Byte) (py : Nat) (acc : Display × Bool) (r c : Nat),
    pixel (drawRows vx py bs acc).1 r c = (pixel acc.1 r c ^^ (decide (r < 32) && rowsBit vx py bs r c))
  | [], py, acc, r, c => by simp [drawRows, rowsBit]
  | b :: bs, py, acc, r, c => by
    rw [drawRows, drawRows_pixel vx bs, drawRow_pixel, rowsBit_cons]
    by_cases h : r = py
    · subst h
      have : rowsBit vx (r + 1) bs r c = false := by simp [rowsBit]
      by_cases hr : r < 32 <;> simp [this, hr]
    · simp [h]

/-- The flag of a sprite: as before, or a lit pixel is under one of its bits. -/
theorem drawRows_hit (vx : Nat) : ∀ (bs : List Byte) (py : Nat) (acc : Display × Bool),
    (drawRows vx py bs acc).2 = true ↔
      acc.2 = true ∨ ∃ r c, r < 32 ∧ pixel acc.1 r c = true ∧ rowsBit vx py bs r c = true
  | [], py, acc => by simp [drawRows, rowsBit]
  | b :: bs, py, acc => by
    rw [drawRows, drawRows_hit vx bs, drawRow_hit]
    constructor
    · rintro ((h | ⟨c, h1, h2, h3⟩) | ⟨r, c, h1, h2, h3⟩)
      · exact .inl h
      · exact .inr ⟨py, c, h1, h2, by rw [rowsBit_cons, if_pos rfl]; exact h3⟩
      · have hr : r ≠ py := by
          rintro rfl
          simp [rowsBit] at h3
        refine .inr ⟨r, c, h1, ?_, by rw [rowsBit_cons, if_neg hr]; exact h3⟩
        rw [drawRow_pixel] at h2
        simpa [hr] using h2
    · rintro (h | ⟨r, c, h1, h2, h3⟩)
      · exact .inl (.inl h)
      · rw [rowsBit_cons] at h3
        by_cases hr : r = py
        · subst hr
          rw [if_pos rfl] at h3
          exact .inl (.inr ⟨c, h1, h2, h3⟩)
        · rw [if_neg hr] at h3
          refine .inr ⟨r, c, h1, ?_, h3⟩
          rw [drawRow_pixel]
          simpa [hr] using h2

end Sys2Proof.Machine
end

