-- ==== Sys2Proof/Laws/Exec.lean ====
section
/-! SUPPORT. What each instruction that may fault can do, once and for all: the condition on the state, and the answer
in terms of the shared operations (41_control_flow R111, R113; 43_index_memory R183 to R185; 44_display R201;
45_keys_timers R220, R221). The other meanings are one line over shared operations and need no such lemma. -/
namespace Sys2Proof.Machine

/-- The state after a push and a jump. -/
def called (nnn : Addr12) (s : State) (_h : s.sp.val < 16) : State :=
  setPc (zext12 nnn) { s with stack := s.stack.set s.sp.val (s.pc + 2), sp := ⟨s.sp.val + 1, by omega⟩ }

/-- The state after a pop into `pc`. -/
def returned (s : State) (_h : s.sp.val ≠ 0) : State :=
  setPc (s.stack[s.sp.val - 1]'(by omega)) { s with sp := ⟨s.sp.val - 1, by omega⟩ }

theorem exec_call_cases (nnn : Addr12) (s : State) :
    (∃ h : s.sp.val < 16, exec (.call nnn) s = .next (called nnn s h)) ∨
      (s.sp.val = 16 ∧ exec (.call nnn) s = .next (raise .stackOverflow s)) := by
  by_cases h : s.sp.val < 16
  · exact .inl ⟨h, by simp [exec, execCall, pushStack_ok h, called]⟩
  · have h' : s.sp.val = 16 := by omega
    exact .inr ⟨h', by simp [exec, execCall, pushStack_error h']⟩

theorem exec_ret_cases (s : State) :
    (∃ h : s.sp.val ≠ 0, exec .ret s = .next (returned s h)) ∨
      (s.sp.val = 0 ∧ exec .ret s = .next (raise .stackUnderflow s)) := by
  by_cases h : s.sp.val = 0
  · exact .inr ⟨h, by simp [exec, execRet, popStack_error h]⟩
  · exact .inl ⟨h, by simp [exec, execRet, popStack_ok h, returned]⟩

theorem exec_ldB_cases (x : Reg) (s : State) :
    (0x200 ≤ s.I.toNat ∧ s.I.toNat + 3 ≤ 0x1000 ∧
      exec (.ldB x) s = .next (storeBlock s.I.toNat (bcdDigits (readV s x)) (advance s))) ∨
    (s.I.toNat < 0x200 ∧ exec (.ldB x) s = .next (raise .reservedWrite s)) ∨
    (0x1000 < s.I.toNat + 3 ∧ exec (.ldB x) s = .next (raise .dataOutOfRange s)) := by
  have hb : bcdDigits (readV s x) ≠ [] := by simp [bcdDigits]
  rcases writeBytes_cases hb s.I.toNat (advance s) with ⟨h1, h2, h3⟩ | ⟨h1, h2⟩ | ⟨_, h1, h2⟩
  · exact .inl ⟨h1, h2, by simp [exec, execLdB, indexAddr, h3]⟩
  · exact .inr (.inl ⟨h1, by simp [exec, execLdB, indexAddr, h2]⟩)
  · exact .inr (.inr ⟨h1, by simp [exec, execLdB, indexAddr, h2]⟩)

theorem exec_dump_cases (x : Reg) (s : State) :
    (0x200 ≤ s.I.toNat ∧ s.I.toNat + (x.val + 1) ≤ 0x1000 ∧
      exec (.dump x) s = .next (storeBlock s.I.toNat (regBlock s x) (advance s))) ∨
    (s.I.toNat < 0x200 ∧ exec (.dump x) s = .next (raise .reservedWrite s)) ∨
    (0x1000 < s.I.toNat + (x.val + 1) ∧ exec (.dump x) s = .next (raise .dataOutOfRange s)) := by
  have hl := regBlock_length s x
  have hb : regBlock s x ≠ [] := by intro h; simp [h] at hl
  rcases writeBytes_cases hb s.I.toNat (advance s) with ⟨h1, h2, h3⟩ | ⟨h1, h2⟩ | ⟨_, h1, h2⟩
  · exact .inl ⟨h1, by omega, by simp [exec, execDump, indexAddr, h3]⟩
  · exact .inr (.inl ⟨h1, by simp [exec, execDump, indexAddr, h2]⟩)
  · exact .inr (.inr ⟨by omega, by simp [exec, execDump, indexAddr, h2]⟩)

theorem exec_load_cases (x : Reg) (s : State) :
    (s.I.toNat + (x.val + 1) ≤ 0x1000 ∧ exec (.load x) s =
      .next (loadBlock ((List.range' s.I.toNat (x.val + 1)).map (readByte s)) (advance s))) ∨
    (0x1000 < s.I.toNat + (x.val + 1) ∧ exec (.load x) s = .next (raise .dataOutOfRange s)) := by
  rcases readBytes_cases s s.I.toNat (x.val + 1) with ⟨h1, h2⟩ | ⟨_, h1, h2⟩
  · exact .inl ⟨by omega, by simp only [exec, execLoad, indexAddr, h2, complete_ok]⟩
  · exact .inr ⟨h1, by simp only [exec, execLoad, indexAddr, h2, complete_error]⟩

theorem exec_drw_cases (x y : Reg) (n : Nibble) (s : State) :
    ((n.toNat = 0 ∨ s.I.toNat + n.toNat ≤ 0x1000) ∧ exec (.drw x y n) s =
      .next (showDrawn (drawSprite (readV s x).toNat (readV s y).toNat
        ((List.range' s.I.toNat n.toNat).map (readByte s)) s.disp) (advance s))) ∨
    (n.toNat ≠ 0 ∧ 0x1000 < s.I.toNat + n.toNat ∧ exec (.drw x y n) s = .next (raise .dataOutOfRange s)) := by
  rcases readBytes_cases s s.I.toNat n.toNat with ⟨h1, h2⟩ | ⟨h0, h1, h2⟩
  · exact .inl ⟨h1, by simp only [exec, execDrw, indexAddr, h2, complete_ok]⟩
  · exact .inr ⟨h0, h1, by simp only [exec, execDrw, indexAddr, h2, complete_error]⟩

theorem exec_skp_cases (x : Reg) (s : State) :
    ((readV s x).toNat ≤ 15 ∧ exec (.skp x) s = .next (skipIf (keyDown s (readV s x).toNat) s)) ∨
    (15 < (readV s x).toNat ∧ exec (.skp x) s = .next (raise .keyIndexOutOfRange s)) := by
  by_cases h : (readV s x).toNat ≤ 15
  · exact .inl ⟨h, by simp [exec, execSkp, keyNumber_ok h]⟩
  · exact .inr ⟨by omega, by simp [exec, execSkp, keyNumber_error (s := s) (x := x) (by omega)]⟩

theorem exec_sknp_cases (x : Reg) (s : State) :
    ((readV s x).toNat ≤ 15 ∧ exec (.sknp x) s = .next (skipIf (!keyDown s (readV s x).toNat) s)) ∨
    (15 < (readV s x).toNat ∧ exec (.sknp x) s = .next (raise .keyIndexOutOfRange s)) := by
  by_cases h : (readV s x).toNat ≤ 15
  · exact .inl ⟨h, by simp [exec, execSknp, keyNumber_ok h]⟩
  · exact .inr ⟨by omega, by simp [exec, execSknp, keyNumber_error (s := s) (x := x) (by omega)]⟩

/-- What an instruction can do to memory: nothing, or store one block inside 0x200..0xFFF. -/
theorem exec_mem {i : Instr} {s t : State} (h : exec i s = .next t) :
    t.config = s.config ∧ (t.mem = s.mem ∨ ∃ a bs, 0x200 ≤ a ∧ a + bs.length ≤ 0x1000 ∧
      t.mem = memSetRun s.config.font s.mem a bs) := by
  cases i
  case ldB x =>
    rcases exec_ldB_cases x s with ⟨h1, h2, e⟩ | ⟨_, e⟩ | ⟨_, e⟩ <;> rw [e] at h <;> cases h
    · exact ⟨rfl, .inr ⟨_, bcdDigits (readV s x), h1, h2, rfl⟩⟩
    · exact ⟨rfl, .inl rfl⟩
    · exact ⟨rfl, .inl rfl⟩
  case dump x =>
    rcases exec_dump_cases x s with ⟨h1, h2, e⟩ | ⟨_, e⟩ | ⟨_, e⟩ <;> rw [e] at h <;> cases h
    · exact ⟨rfl, .inr ⟨_, _, h1, by rw [regBlock_length]; exact h2, rfl⟩⟩
    · exact ⟨rfl, .inl rfl⟩
    · exact ⟨rfl, .inl rfl⟩
  case call nnn => rcases exec_call_cases nnn s with ⟨_, e⟩ | ⟨_, e⟩ <;> rw [e] at h <;> cases h <;> exact ⟨rfl, .inl rfl⟩
  case ret => rcases exec_ret_cases s with ⟨_, e⟩ | ⟨_, e⟩ <;> rw [e] at h <;> cases h <;> exact ⟨rfl, .inl rfl⟩
  case load x => rcases exec_load_cases x s with ⟨_, e⟩ | ⟨_, e⟩ <;> rw [e] at h <;> cases h <;> exact ⟨rfl, .inl rfl⟩
  case drw x y n =>
    rcases exec_drw_cases x y n s with ⟨_, e⟩ | ⟨_, _, e⟩ <;> rw [e] at h <;> cases h <;> exact ⟨rfl, .inl rfl⟩
  case skp x =>
    rcases exec_skp_cases x s with ⟨_, e⟩ | ⟨_, e⟩ <;> rw [e] at h <;> cases h <;> exact ⟨by simp, .inl (by simp)⟩
  case sknp x =>
    rcases exec_sknp_cases x s with ⟨_, e⟩ | ⟨_, e⟩ <;> rw [e] at h <;> cases h <;> exact ⟨by simp, .inl (by simp)⟩
  all_goals cases h; exact ⟨by simp, .inl (by simp)⟩

end Sys2Proof.Machine
end

