-- ==== Sys2Proof/Laws/Flags.lean ====
section
/-! SUPPORT. The 8-bit ALU in numbers (42_alu R147 to R151). -/
namespace Sys2Proof.Machine

@[simp] theorem aluAdd_result (a b : Byte) : (aluAdd a b).1.toNat = (a.toNat + b.toNat) % 256 := by simp [aluAdd]
@[simp] theorem aluAdd_flag (a b : Byte) : (aluAdd a b).2 = decide (255 < a.toNat + b.toNat) := rfl
@[simp] theorem aluSub_result (a b : Byte) : (aluSub a b).1.toNat = (a.toNat + 256 - b.toNat) % 256 := by
  have := b.isLt; simp [aluSub, BitVec.toNat_sub]; omega
@[simp] theorem aluSub_flag (a b : Byte) : (aluSub a b).2 = decide (b.toNat ≤ a.toNat) := rfl
@[simp] theorem aluShr_result (a : Byte) : (aluShr a).1.toNat = a.toNat / 2 := by
  simp [aluShr, Nat.shiftRight_eq_div_pow]
@[simp] theorem aluShr_flag (a : Byte) : (aluShr a).2 = decide (a.toNat % 2 = 1) := by
  simp [aluShr, BitVec.getLsbD, Nat.testBit_zero]
@[simp] theorem aluShl_result (a : Byte) : (aluShl a).1.toNat = 2 * a.toNat % 256 := by
  simp [aluShl, BitVec.toNat_shiftLeft, Nat.shiftLeft_eq]; omega
@[simp] theorem aluShl_flag (a : Byte) : (aluShl a).2 = decide (128 ≤ a.toNat) := by
  have := a.isLt
  simp only [aluShl, BitVec.getLsbD, Nat.testBit_eq_decide_div_mod_eq]
  congr 1; simp only [eq_iff_iff]; omega

/-- A flag is 1 or 0. -/
theorem flagByte_eq (f : Bool) : flagByte f = 0 ∨ flagByte f = 1 := by cases f <;> simp [flagByte]

end Sys2Proof.Machine
end

