-- ==== Sys2Proof/Laws/Outputs.lean ====
section
/-! SUPPORT. What the host reads of a state, output by output (10_state R46, 45_keys_timers R229). -/
namespace Sys2Proof.Machine

@[simp] theorem outputs_disp (s : State) : (outputs s).disp = s.disp := rfl

@[simp] theorem outputs_halted (s : State) : (outputs s).halted = s.halted := rfl

@[simp] theorem outputs_faultCode (s : State) : (outputs s).faultCode = faultNumber s.faultCode := rfl

@[simp] theorem outputs_faultPc (s : State) : (outputs s).faultPc = s.faultPc := rfl

theorem outputs_soundOn_iff (s : State) : (outputs s).soundOn = true ↔ 0 < s.ST.toNat := by
  rw [Nat.pos_iff_ne_zero]
  simp [outputs, soundOn, ← BitVec.toNat_inj]

theorem outputs_waiting_iff (s : State) : (outputs s).waiting = true ↔ ∃ x, s.wait = some x := by
  simp [outputs, waiting, Option.isSome_iff_exists]

end Sys2Proof.Machine
end

