-- ==== Sys2Proof/Laws/PerInstr.lean ====
section
/-! SUPPORT. The family EncodeSelectsRow, instruction by instruction: the word the encoder writes selects the row of
the opcode map (30_encoding R85) that carries the instruction's op id. -/
namespace Sys2Proof.Laws.EncodeSelectsRow

/-- For a well-formed instruction some row of the map has its op id, and the encoded word selects that row. -/
def Statement (i : Instr) : Prop :=
  ∀ strict, i.wf strict = true → ∃ r ∈ opcodeMap strict, r.id = opId i ∧ rowMatches (encode i) r = true

theorem opcode_and (w m p : Word) (h : w &&& m = p) : (w &&& m == p) = true := by simp [h]

theorem and_ones4 (v : BitVec 4) : v &&& 0xF#4 = v := BitVec.and_allOnes
theorem and_ones8 (v : BitVec 8) : v &&& 0xFF#8 = v := BitVec.and_allOnes
theorem and_zero4 (v : BitVec 4) : v &&& 0#4 = 0#4 := BitVec.and_zero
theorem and_zero8 (v : BitVec 8) : v &&& 0#8 = 0#8 := BitVec.and_zero

theorem wordA_and (op : BitVec 4) (nnn : Addr12) : wordA op nnn &&& 0xF000#16 = wordA op 0#12 :=
  BitVec.and_append.trans (congrArg₂ (fun (a : BitVec 4) (b : BitVec 12) => (a ++ b : BitVec 16))
    (and_ones4 op) (BitVec.and_zero (x := nnn)))

/-- Masking an XB word masks its fields. -/
theorem wordXB_and_fields (op m1 m2 : BitVec 4) (x : Reg) (nn m3 : Byte) :
    wordXB op x nn &&& (m1 ++ m2 ++ m3 : BitVec 16) = ((op &&& m1) ++ (regBits x &&& m2) ++ (nn &&& m3) : BitVec 16) :=
  BitVec.and_append.trans (congrArg (fun (a : BitVec 8) => (a ++ (nn &&& m3) : BitVec 16)) BitVec.and_append)

/-- Masking an XYN word masks its fields. -/
theorem wordXYN_and_fields (op m1 m2 m3 : BitVec 4) (x y : Reg) (n m4 : Nibble) :
    wordXYN op x y n &&& (m1 ++ m2 ++ m3 ++ m4 : BitVec 16) =
      ((op &&& m1) ++ (regBits x &&& m2) ++ (regBits y &&& m3) ++ (n &&& m4) : BitVec 16) :=
  BitVec.and_append.trans (congrArg (fun (a : BitVec 12) => (a ++ (n &&& m4) : BitVec 16))
    (BitVec.and_append.trans (congrArg (fun (a : BitVec 8) => (a ++ (regBits y &&& m3) : BitVec 12)) BitVec.and_append)))

theorem wordXB_and (op : BitVec 4) (x : Reg) (nn : Byte) : wordXB op x nn &&& 0xF000#16 = wordXB op 0 0#8 := by
  rw [show (0xF000#16) = (0xF#4 ++ 0#4 ++ 0#8 : BitVec 16) from rfl, wordXB_and_fields, and_ones4, and_zero4, and_zero8]
  rfl

theorem wordXB_and_key (op : BitVec 4) (x : Reg) (nn : Byte) : wordXB op x nn &&& 0xF0FF#16 = wordXB op 0 nn := by
  rw [show (0xF0FF#16) = (0xF#4 ++ 0#4 ++ 0xFF#8 : BitVec 16) from rfl, wordXB_and_fields, and_ones4, and_zero4, and_ones8]
  rfl

theorem wordXYN_and (op : BitVec 4) (x y : Reg) (n : Nibble) : wordXYN op x y n &&& 0xF000#16 = wordXYN op 0 0 0#4 := by
  rw [show (0xF000#16) = (0xF#4 ++ 0#4 ++ 0#4 ++ 0#4 : BitVec 16) from rfl, wordXYN_and_fields, and_ones4, and_zero4,
    and_zero4, and_zero4]
  rfl

theorem wordXYN_and_key (op : BitVec 4) (x y : Reg) (n : Nibble) :
    wordXYN op x y n &&& 0xF00F#16 = wordXYN op 0 0 n := by
  rw [show (0xF00F#16) = (0xF#4 ++ 0#4 ++ 0#4 ++ 0xF#4 : BitVec 16) from rfl, wordXYN_and_fields, and_ones4, and_zero4,
    and_zero4, and_ones4]
  rfl

/-- The shape of every proof below: name the row, find it in the map, and mask the word. -/
theorem of_row {i : Instr} (r : OpcodeRow) (hm : ∀ strict, r ∈ opcodeMap strict) (hid : r.id = opId i)
    (hw : encode i &&& r.mask = r.pattern) : Statement i :=
  fun strict _ => ⟨r, hm strict, hid, opcode_and _ _ _ hw⟩

theorem cls : Statement .cls := of_row ⟨0, 0xFFFF, 0x00E0⟩ (by decide) rfl rfl
theorem ret : Statement .ret := of_row ⟨1, 0xFFFF, 0x00EE⟩ (by decide) rfl rfl
theorem jp (nnn : Addr12) : Statement (.jp nnn) := of_row ⟨2, 0xF000, 0x1000⟩ (by decide) rfl (wordA_and _ _)
theorem call (nnn : Addr12) : Statement (.call nnn) := of_row ⟨3, 0xF000, 0x2000⟩ (by decide) rfl (wordA_and _ _)
theorem seImm (x : Reg) (nn : Byte) : Statement (.seImm x nn) :=
  of_row ⟨4, 0xF000, 0x3000⟩ (by decide) rfl (wordXB_and _ _ _)
theorem sneImm (x : Reg) (nn : Byte) : Statement (.sneImm x nn) :=
  of_row ⟨5, 0xF000, 0x4000⟩ (by decide) rfl (wordXB_and _ _ _)

/-- A register skip: under STRICT_5_9 the row's mask takes in the nibble `n`, which is then 0. -/
theorem regSkip_row (op : BitVec 4) (x y : Reg) (n : Nibble) (strict : Bool) (h : (!strict || n == 0#4) = true) :
    wordXYN op x y n &&& regSkipMask strict = wordXYN op 0 0 0#4 := by
  cases strict with
  | false => exact wordXYN_and op x y n
  | true =>
    simp only [Bool.not_true, Bool.false_or, beq_iff_eq] at h
    subst h
    exact wordXYN_and_key op x y 0#4

theorem seReg (x y : Reg) (n : Nibble) : Statement (.seReg x y n) := fun strict h =>
  ⟨⟨6, regSkipMask strict, 0x5000⟩, by simp [opcodeMap], rfl, opcode_and _ _ _ (regSkip_row _ x y n strict h)⟩
theorem ldImm (x : Reg) (nn : Byte) : Statement (.ldImm x nn) :=
  of_row ⟨7, 0xF000, 0x6000⟩ (by decide) rfl (wordXB_and _ _ _)
theorem addImm (x : Reg) (nn : Byte) : Statement (.addImm x nn) :=
  of_row ⟨8, 0xF000, 0x7000⟩ (by decide) rfl (wordXB_and _ _ _)
theorem ldReg (x y : Reg) : Statement (.ldReg x y) :=
  of_row ⟨9, 0xF00F, 0x8000⟩ (by decide) rfl (wordXYN_and_key _ _ _ _)
theorem orReg (x y : Reg) : Statement (.orReg x y) :=
  of_row ⟨10, 0xF00F, 0x8001⟩ (by decide) rfl (wordXYN_and_key _ _ _ _)
theorem andReg (x y : Reg) : Statement (.andReg x y) :=
  of_row ⟨11, 0xF00F, 0x8002⟩ (by decide) rfl (wordXYN_and_key _ _ _ _)
theorem xorReg (x y : Reg) : Statement (.xorReg x y) :=
  of_row ⟨12, 0xF00F, 0x8003⟩ (by decide) rfl (wordXYN_and_key _ _ _ _)
theorem addReg (x y : Reg) : Statement (.addReg x y) :=
  of_row ⟨13, 0xF00F, 0x8004⟩ (by decide) rfl (wordXYN_and_key _ _ _ _)
theorem subReg (x y : Reg) : Statement (.subReg x y) :=
  of_row ⟨14, 0xF00F, 0x8005⟩ (by decide) rfl (wordXYN_and_key _ _ _ _)
theorem shr (x y : Reg) : Statement (.shr x y) :=
  of_row ⟨15, 0xF00F, 0x8006⟩ (by decide) rfl (wordXYN_and_key _ _ _ _)
theorem subnReg (x y : Reg) : Statement (.subnReg x y) :=
  of_row ⟨16, 0xF00F, 0x8007⟩ (by decide) rfl (wordXYN_and_key _ _ _ _)
theorem shl (x y : Reg) : Statement (.shl x y) :=
  of_row ⟨17, 0xF00F, 0x800E⟩ (by decide) rfl (wordXYN_and_key _ _ _ _)
theorem sneReg (x y : Reg) (n : Nibble) : Statement (.sneReg x y n) := fun strict h =>
  ⟨⟨18, regSkipMask strict, 0x9000⟩, by simp [opcodeMap], rfl, opcode_and _ _ _ (regSkip_row _ x y n strict h)⟩
theorem ldI (nnn : Addr12) : Statement (.ldI nnn) := of_row ⟨19, 0xF000, 0xA000⟩ (by decide) rfl (wordA_and _ _)
theorem jpV0 (nnn : Addr12) : Statement (.jpV0 nnn) := of_row ⟨20, 0xF000, 0xB000⟩ (by decide) rfl (wordA_and _ _)
theorem rnd (x : Reg) (nn : Byte) : Statement (.rnd x nn) :=
  of_row ⟨21, 0xF000, 0xC000⟩ (by decide) rfl (wordXB_and _ _ _)
theorem drw (x y : Reg) (n : Nibble) : Statement (.drw x y n) :=
  of_row ⟨22, 0xF000, 0xD000⟩ (by decide) rfl (wordXYN_and _ _ _ _)
theorem skp (x : Reg) : Statement (.skp x) := of_row ⟨23, 0xF0FF, 0xE09E⟩ (by decide) rfl (wordXB_and_key _ _ _)
theorem sknp (x : Reg) : Statement (.sknp x) := of_row ⟨24, 0xF0FF, 0xE0A1⟩ (by decide) rfl (wordXB_and_key _ _ _)
theorem ldVxDT (x : Reg) : Statement (.ldVxDT x) :=
  of_row ⟨25, 0xF0FF, 0xF007⟩ (by decide) rfl (wordXB_and_key _ _ _)
theorem ldVxK (x : Reg) : Statement (.ldVxK x) :=
  of_row ⟨26, 0xF0FF, 0xF00A⟩ (by decide) rfl (wordXB_and_key _ _ _)
theorem ldDTVx (x : Reg) : Statement (.ldDTVx x) :=
  of_row ⟨27, 0xF0FF, 0xF015⟩ (by decide) rfl (wordXB_and_key _ _ _)
theorem ldSTVx (x : Reg) : Statement (.ldSTVx x) :=
  of_row ⟨28, 0xF0FF, 0xF018⟩ (by decide) rfl (wordXB_and_key _ _ _)
theorem addI (x : Reg) : Statement (.addI x) := of_row ⟨29, 0xF0FF, 0xF01E⟩ (by decide) rfl (wordXB_and_key _ _ _)
theorem ldF (x : Reg) : Statement (.ldF x) := of_row ⟨30, 0xF0FF, 0xF029⟩ (by decide) rfl (wordXB_and_key _ _ _)
theorem ldB (x : Reg) : Statement (.ldB x) := of_row ⟨31, 0xF0FF, 0xF033⟩ (by decide) rfl (wordXB_and_key _ _ _)
theorem dump (x : Reg) : Statement (.dump x) := of_row ⟨32, 0xF0FF, 0xF055⟩ (by decide) rfl (wordXB_and_key _ _ _)
theorem load (x : Reg) : Statement (.load x) := of_row ⟨33, 0xF0FF, 0xF065⟩ (by decide) rfl (wordXB_and_key _ _ _)

end Sys2Proof.Laws.EncodeSelectsRow
end

