-- ==== Sys2Proof/Laws/Step.lean ====
section
/-! SUPPORT. The inversion of a step: everything one step can do, with its guards (70_reset R343, 30_encoding R91). An
invariant of the machine is proved by cases on it. -/
namespace Sys2Proof.Machine

/-- How the state `t` comes from `s0`, the state in which the host's next operation is performed. -/
inductive StepCase (s0 t : State) : Prop where
  /-- A Cycle of a halted core. -/
  | frozen (h : s0.halted = true) (e : t = s0)
  /-- A waiting step. -/
  | waited (x : Reg) (h : s0.halted = false) (hw : s0.wait = some x) (e : t = waitStep x (beginCycle s0))
  /-- A fault of the fetch or the decoder. -/
  | fetchFault (c : FaultCode) (h : s0.halted = false) (hw : s0.wait = none) (hc : c ≠ .none)
      (hf : fetchInstr (beginCycle s0) = .error c) (e : t = raise c (beginCycle s0))
  /-- An instruction. -/
  | ran (i : Instr) (h : s0.halted = false) (hw : s0.wait = none) (hf : fetchInstr (beginCycle s0) = .ok i)
      (e : exec i (beginCycle s0) = .next t)
  /-- Reset. -/
  | reset (e : t = hostReset s0)
  /-- A ROM that is too large. -/
  | romTooLarge (ho : s0.loadOpen = true) (h : s0.halted = false) (e : t = raise .romTooLarge { s0 with loadOpen := false })
  /-- A ROM stored. -/
  | loaded (rom : List Byte) (ho : s0.loadOpen = true) (h : s0.halted = false) (hl : rom.length ≤ 3584)
      (e : t = storeBlock 0x200 rom { s0 with loadOpen := false })
  /-- SetKeys. -/
  | keys (k : Word) (e : t = hostSetKeys k s0)
  /-- Tick. -/
  | tick (e : t = hostTick s0)

theorem cycle_stepCase {s t : State} (h : cycle s = .next t) : StepCase s t := by
  rcases cycle_cases s with ⟨h1, e⟩ | ⟨h1, x, h2, e⟩ | ⟨h1, h2, c, hf, e⟩ | ⟨h1, h2, i, hf, e⟩ <;> rw [e] at h
  · cases h; exact .frozen h1 rfl
  · cases h; exact .waited x h1 h2 rfl
  · cases h; exact .fetchFault c h1 h2 (fetchInstr_error_ne_none hf) hf rfl
  · exact .ran i h1 h2 hf h

theorem perform_stepCase {op : HostOp} {s t : State} (h : perform op s = .next t) : StepCase s t := by
  cases op with
  | reset => cases h; exact .reset rfl
  | load rom =>
    have h : hostLoad rom s = .next t := h
    rcases hostLoad_cases rom s with ⟨_, e⟩ | ⟨ho, hh, _, e⟩ | ⟨ho, hh, hl, e⟩ <;> rw [e] at h <;> cases h
    · exact .romTooLarge ho hh rfl
    · exact .loaded rom ho hh hl rfl
  | setKeys k => cases h; exact .keys k rfl
  | cycle => exact cycle_stepCase h
  | tick => cases h; exact .tick rfl

/-- Everything a step can do: it takes at most one operation off the host's list and then one of the cases holds. -/
theorem step_cases {s t : State} (h : step s = .next t) :
    ∃ s0, (s0 = s ∨ ∃ rest, s0 = { s with host := rest }) ∧ StepCase s0 t := by
  rcases nextOp_cases s with ⟨_, h1⟩ | ⟨op, rest, _, h1⟩ <;> rw [step_perform h1] at h
  · exact ⟨s, .inl rfl, perform_stepCase h⟩
  · exact ⟨_, .inr ⟨rest, rfl⟩, perform_stepCase h⟩

/-- A tick changes the timers alone. -/
theorem hostTick_shape (s : State) : ∃ d e, hostTick s = { s with DT := d, ST := e } := by
  unfold hostTick
  split
  · exact ⟨s.DT, s.ST, rfl⟩
  · exact ⟨_, _, rfl⟩

/-- A waiting step changes the registers, the wait state and the key sample alone. -/
theorem waitStep_shape (x : Reg) (s : State) :
    ∃ V w, waitStep x s = { s with V := V, wait := w, keyPrev := s.keys } := by
  rcases waitStep_cases x s with ⟨k, _, e⟩ | ⟨_, e⟩ <;> rw [e]
  · exact ⟨_, _, rfl⟩
  · exact ⟨s.V, s.wait, rfl⟩

end Sys2Proof.Machine
end

