-- ==== Sys2Proof/Machine/Assembly.lean ====
section
/-! DEFINITION. The assembler text of an instruction (30_encoding R90, 92_eei_decisions D28). Notation only: no
behaviour depends on it. -/
namespace Sys2Proof.Machine

/-- The hex digit of a number below 16. -/
def hexDigit (k : Nat) : String :=
  ["0", "1", "2", "3", "4", "5", "6", "7", "8", "9", "A", "B", "C", "D", "E", "F"].getD (k % 16) "0"

/-- A register's name, `V0` to `VF`. -/
def asmReg (x : Reg) : String := "V" ++ hexDigit x.val

/-- An address, as `0x2A4`. -/
def asmAddr (a : Addr12) : String :=
  "0x" ++ hexDigit (a.toNat / 0x100) ++ hexDigit (a.toNat / 0x10) ++ hexDigit a.toNat

/-- A byte, as `0x05`. -/
def asmByte (b : Byte) : String := "0x" ++ hexDigit (b.toNat / 0x10) ++ hexDigit b.toNat

/-- A count below 16 in decimal. -/
def asmCount (n : Nibble) : String := if n.toNat < 10 then hexDigit n.toNat else "1" ++ hexDigit (n.toNat - 10)

/-- A raw word, high byte first: the directive `DW 0xhhhh`. -/
def asmDw (w : Word) : String :=
  "DW 0x" ++ hexDigit (w.toNat / 0x1000) ++ hexDigit (w.toNat / 0x100) ++ hexDigit (w.toNat / 0x10) ++ hexDigit w.toNat

/-- Mnemonic and two operands. -/
def asmTwo (m a b : String) : String := m ++ " " ++ a ++ ", " ++ b

/-- A shift: `SHR Vx` encodes `y = 0`, `SHR Vx, Vy` any other `y` (R90). -/
def asmShift (m : String) (x y : Reg) : String :=
  if y = 0 then m ++ " " ++ asmReg x else asmTwo m (asmReg x) (asmReg y)

/-- The text of an instruction. A register skip with `n != 0` (STRICT_5_9 false) has no text of its own in R90 and is
written as its raw word. -/
def asmText : Instr → String
  | .cls => "CLS"
  | .ret => "RET"
  | .jp nnn => "JP " ++ asmAddr nnn
  | .call nnn => "CALL " ++ asmAddr nnn
  | .seImm x nn => asmTwo "SE" (asmReg x) (asmByte nn)
  | .sneImm x nn => asmTwo "SNE" (asmReg x) (asmByte nn)
  | .seReg x y n => if n = 0 then asmTwo "SE" (asmReg x) (asmReg y) else asmDw (encode (.seReg x y n))
  | .ldImm x nn => asmTwo "LD" (asmReg x) (asmByte nn)
  | .addImm x nn => asmTwo "ADD" (asmReg x) (asmByte nn)
  | .ldReg x y => asmTwo "LD" (asmReg x) (asmReg y)
  | .orReg x y => asmTwo "OR" (asmReg x) (asmReg y)
  | .andReg x y => asmTwo "AND" (asmReg x) (asmReg y)
  | .xorReg x y => asmTwo "XOR" (asmReg x) (asmReg y)
  | .addReg x y => asmTwo "ADD" (asmReg x) (asmReg y)
  | .subReg x y => asmTwo "SUB" (asmReg x) (asmReg y)
  | .shr x y => asmShift "SHR" x y
  | .subnReg x y => asmTwo "SUBN" (asmReg x) (asmReg y)
  | .shl x y => asmShift "SHL" x y
  | .sneReg x y n => if n = 0 then asmTwo "SNE" (asmReg x) (asmReg y) else asmDw (encode (.sneReg x y n))
  | .ldI nnn => asmTwo "LD" "I" (asmAddr nnn)
  | .jpV0 nnn => asmTwo "JP" "V0" (asmAddr nnn)
  | .rnd x nn => asmTwo "RND" (asmReg x) (asmByte nn)
  | .drw x y n => asmTwo "DRW" (asmReg x) (asmReg y) ++ ", " ++ asmCount n
  | .skp x => "SKP " ++ asmReg x
  | .sknp x => "SKNP " ++ asmReg x
  | .ldVxDT x => asmTwo "LD" (asmReg x) "DT"
  | .ldVxK x => asmTwo "LD" (asmReg x) "K"
  | .ldDTVx x => asmTwo "LD" "DT" (asmReg x)
  | .ldSTVx x => asmTwo "LD" "ST" (asmReg x)
  | .addI x => asmTwo "ADD" "I" (asmReg x)
  | .ldF x => asmTwo "LD" "F" (asmReg x)
  | .ldB x => asmTwo "LD" "B" (asmReg x)
  | .dump x => asmTwo "LD" "[I]" (asmReg x)
  | .load x => asmTwo "LD" (asmReg x) "[I]"

end Sys2Proof.Machine
end

