-- ==== Sys2Proof/Tests/Slice0.lean ====
section
/-! SUPPORT. Small tests, each of one step on a small state, with expected results from 95_test_vectors; the decoding of
every constructor from a word written out by hand; the WellFormed smoke; and a witness for the hypotheses of each
statement. -/
namespace Sys2Proof.Tests

open Sys2Proof Sys2Proof.Machine Sys2Proof.Claims

/-! ### Helpers -/

/-- What a step answered, seen through `f`; nothing for a refusal. -/
def got {α : Type} (r : Result) (f : State → α) : Option α :=
  match r with
  | .next t => some (f t)
  | .fault _ => none
  | .refused _ => none

/-- One step that runs the word `w`. -/
def run1 (s : State) (w : Nat) : Result := step (s.withFetchWord 16 w)

/-- The reset state with registers set. -/
def regs (l : List (Reg × Byte)) : State := l.foldl (fun s p => writeV p.1 p.2 s) State.reset

/-- A state with `I` set. -/
def withI (a : Word) (s : State) : State := { s with I := a }

/-- A state with bytes stored. -/
def withBytes (a : Nat) (bs : List Byte) (s : State) : State := { s with mem := memSetRun s.config.font s.mem a bs }

/-- A state with one pixel row set. -/
def withRow (r : Fin 32) (v : BitVec 64) (s : State) : State := { s with disp := s.disp.set r v }

/-- The fault status and `pc`. -/
def status (t : State) : Bool × Nat × Word × Word := (t.halted, faultNumber t.faultCode, t.faultPc, t.pc)

/-! ### Decode: a word written out from R85's pattern for every constructor, and the same word encoded -/

theorem test_decode_cls : decode true 0x00E0#16 = .ok (.cls) ∧ encode (.cls) = 0x00E0#16 := by decide
theorem test_decode_ret : decode true 0x00EE#16 = .ok (.ret) ∧ encode (.ret) = 0x00EE#16 := by decide
theorem test_decode_jp : decode true 0x1234#16 = .ok (.jp 0x234#12) ∧ encode (.jp 0x234#12) = 0x1234#16 := by decide
theorem test_decode_call : decode true 0x2210#16 = .ok (.call 0x210#12) ∧ encode (.call 0x210#12) = 0x2210#16 := by decide
theorem test_decode_seImm : decode true 0x332A#16 = .ok (.seImm 3 0x2A#8) ∧ encode (.seImm 3 0x2A#8) = 0x332A#16 := by decide
theorem test_decode_sneImm : decode true 0x432A#16 = .ok (.sneImm 3 0x2A#8) ∧ encode (.sneImm 3 0x2A#8) = 0x432A#16 := by decide
theorem test_decode_seReg : decode true 0x5120#16 = .ok (.seReg 1 2 0#4) ∧ encode (.seReg 1 2 0#4) = 0x5120#16 := by decide
theorem test_decode_ldImm : decode true 0x6005#16 = .ok (.ldImm 0 0x05#8) ∧ encode (.ldImm 0 0x05#8) = 0x6005#16 := by decide
theorem test_decode_addImm : decode true 0x7220#16 = .ok (.addImm 2 0x20#8) ∧ encode (.addImm 2 0x20#8) = 0x7220#16 := by decide
theorem test_decode_ldReg : decode true 0x8150#16 = .ok (.ldReg 1 5) ∧ encode (.ldReg 1 5) = 0x8150#16 := by decide
theorem test_decode_orReg : decode true 0x8121#16 = .ok (.orReg 1 2) ∧ encode (.orReg 1 2) = 0x8121#16 := by decide
theorem test_decode_andReg : decode true 0x8122#16 = .ok (.andReg 1 2) ∧ encode (.andReg 1 2) = 0x8122#16 := by decide
theorem test_decode_xorReg : decode true 0x8123#16 = .ok (.xorReg 1 2) ∧ encode (.xorReg 1 2) = 0x8123#16 := by decide
theorem test_decode_addReg : decode true 0x8124#16 = .ok (.addReg 1 2) ∧ encode (.addReg 1 2) = 0x8124#16 := by decide
theorem test_decode_subReg : decode true 0x8125#16 = .ok (.subReg 1 2) ∧ encode (.subReg 1 2) = 0x8125#16 := by decide
theorem test_decode_shr : decode true 0x8AB6#16 = .ok (.shr 10 11) ∧ encode (.shr 10 11) = 0x8AB6#16 := by decide
theorem test_decode_subnReg : decode true 0x8127#16 = .ok (.subnReg 1 2) ∧ encode (.subnReg 1 2) = 0x8127#16 := by decide
theorem test_decode_shl : decode true 0x8FFE#16 = .ok (.shl 15 15) ∧ encode (.shl 15 15) = 0x8FFE#16 := by decide
theorem test_decode_sneReg : decode true 0x9120#16 = .ok (.sneReg 1 2 0#4) ∧ encode (.sneReg 1 2 0#4) = 0x9120#16 := by decide
theorem test_decode_ldI : decode true 0xA300#16 = .ok (.ldI 0x300#12) ∧ encode (.ldI 0x300#12) = 0xA300#16 := by decide
theorem test_decode_jpV0 : decode true 0xBFFF#16 = .ok (.jpV0 0xFFF#12) ∧ encode (.jpV0 0xFFF#12) = 0xBFFF#16 := by decide
theorem test_decode_rnd : decode true 0xC30F#16 = .ok (.rnd 3 0x0F#8) ∧ encode (.rnd 3 0x0F#8) = 0xC30F#16 := by decide
theorem test_decode_drw : decode true 0xD015#16 = .ok (.drw 0 1 5#4) ∧ encode (.drw 0 1 5#4) = 0xD015#16 := by decide
theorem test_decode_skp : decode true 0xE49E#16 = .ok (.skp 4) ∧ encode (.skp 4) = 0xE49E#16 := by decide
theorem test_decode_sknp : decode true 0xE4A1#16 = .ok (.sknp 4) ∧ encode (.sknp 4) = 0xE4A1#16 := by decide
theorem test_decode_ldVxDT : decode true 0xF307#16 = .ok (.ldVxDT 3) ∧ encode (.ldVxDT 3) = 0xF307#16 := by decide
theorem test_decode_ldVxK : decode true 0xF50A#16 = .ok (.ldVxK 5) ∧ encode (.ldVxK 5) = 0xF50A#16 := by decide
theorem test_decode_ldDTVx : decode true 0xF115#16 = .ok (.ldDTVx 1) ∧ encode (.ldDTVx 1) = 0xF115#16 := by decide
theorem test_decode_ldSTVx : decode true 0xF118#16 = .ok (.ldSTVx 1) ∧ encode (.ldSTVx 1) = 0xF118#16 := by decide
theorem test_decode_addI : decode true 0xF21E#16 = .ok (.addI 2) ∧ encode (.addI 2) = 0xF21E#16 := by decide
theorem test_decode_ldF : decode true 0xF129#16 = .ok (.ldF 1) ∧ encode (.ldF 1) = 0xF129#16 := by decide
theorem test_decode_ldB : decode true 0xF233#16 = .ok (.ldB 2) ∧ encode (.ldB 2) = 0xF233#16 := by decide
theorem test_decode_dump : decode true 0xF155#16 = .ok (.dump 1) ∧ encode (.dump 1) = 0xF155#16 := by decide
theorem test_decode_load : decode true 0xFF65#16 = .ok (.load 15) ∧ encode (.load 15) = 0xFF65#16 := by decide
theorem test_decode_bits_drw : decode true 0b1101101100110111#16 = .ok (.drw 0xB 3 7#4) := by decide
theorem test_decode_bits_shr : decode true 0b1000101010110110#16 = .ok (.shr 0xA 0xB) := by decide
theorem test_decode_bits_load : decode true 0b1111001101100101#16 = .ok (.load 3) := by decide

/-! ### Illegal words: X5 to X13 -/

theorem test_illegal_sys : decode true 0x0123#16 = .error (.illegal 0x0123#16) := by decide
theorem test_illegal_alu : decode true 0x8128#16 = .error (.illegal 0x8128#16) := by decide
theorem test_illegal_key : decode true 0xE400#16 = .error (.illegal 0xE400#16) := by decide
theorem test_illegal_misc : decode true 0xF0FF#16 = .error (.illegal 0xF0FF#16) := by decide
theorem test_strict_skip : decode true 0x912F#16 = .error (.illegal 0x912F#16) ∧
    decode false 0x912F#16 = .ok (.sneReg 1 2 0xF#4) := by decide
theorem test_decode_truncated : decodeBytes true [0x60#8] = .error .truncated ∧
    decodeBytes true [] = .error .truncated := by decide
theorem test_decode_rest : decodeBytes true [0x60#8, 0x05#8, 0xAA#8] = .ok (.ldImm 0 5#8, [0xAA#8]) := by decide
theorem test_table_word : decodeTableWord 16 0x6005 = some (.ldImm 0 5#8) ∧ decodeTableWord 16 0x0000 = none := by decide

/-! ### WellFormed refuses the ill-formed -/

theorem test_wf_refuses_seReg : Instr.wf true (.seReg 1 2 3#4) = false := by decide
theorem test_wf_refuses_sneReg : Instr.wf true (.sneReg 1 2 3#4) = false := by decide
theorem test_wf_accepts_loose : Instr.wf false (.seReg 1 2 3#4) = true := by decide

/-! ### Assembler text (30_encoding R90) -/

theorem test_asm_drw : asmText (.drw 0 15 12#4) = "DRW V0, VF, 12" := by decide
theorem test_asm_shr : asmText (.shr 1 0) = "SHR V1" ∧ asmText (.shr 10 11) = "SHR VA, VB" := by decide
theorem test_asm_jp : asmText (.jp 0x2A4#12) = "JP 0x2A4" := by decide
theorem test_asm_raw : asmDw 0x0123#16 = "DW 0x0123" := by decide

/-! ### Fetch and the cycle -/

/-- X1 -/
theorem test_fetch_last_word : got (run1 { State.reset with pc := 0xFFE } 0x6042) (fun t => (readV t 0, t.pc)) =
    some (0x42, 0x1000) := by decide
/-- X2 -/
theorem test_fetch_bounds_first : got (step { State.reset with pc := 0xFFF }) status =
    some (true, 3, 0xFFF, 0xFFF) := by decide
/-- X4 -/
theorem test_fetch_odd : got (step { State.reset with pc := 0x201 }) status = some (true, 4, 0x201, 0x201) := by decide
/-- X5, L4 -/
theorem test_fetch_illegal : got (step State.reset) status = some (true, 5, 0x200, 0x200) := by decide
/-- X14 -/
theorem test_halted_cycle :
    got (step { withBytes 0x200 [0x60, 0x05] State.reset with halted := true, faultCode := .illegalOpcode })
      (fun t => (readV t 0, t.pc, t.halted, faultNumber t.faultCode)) = some (0, 0x200, true, 5) := by decide
/-- W6 -/
theorem test_load_then_cycle :
    got (Host.Core.run Sys2Proof.core 2 { State.reset with host := [.load [0x60, 0x05]] })
      (fun t : State => (readByte t 0x200, readByte t 0x201, readV t 0, t.pc)) = some (0x60, 0x05, 0x05, 0x202) := by decide

/-! ### Control flow -/

/-- C1 -/
theorem test_ret : got (run1 { State.reset with sp := 1, stack := State.reset.stack.set 0 0x206 } 0x00EE)
    (fun t => (t.sp, t.pc, t.stack[0])) = some (0, 0x206, 0x206) := by decide
/-- C2 -/
theorem test_ret_underflow : got (run1 State.reset 0x00EE) status = some (true, 2, 0x200, 0x200) := by decide
/-- C4 -/
theorem test_jp : got (run1 State.reset 0x1234) (fun t => t.pc) = some 0x234 := by decide
/-- C7 -/
theorem test_call : got (run1 { State.reset with pc := 0x204 } 0x2210) (fun t => (t.stack[0], t.sp, t.pc)) =
    some (0x206, 1, 0x210) := by decide
/-- C8 -/
theorem test_call_overflow : got (run1 { State.reset with sp := 16 } 0x2210) (fun t => (t.sp, status t)) =
    some (16, true, 1, 0x200, 0x200) := by decide
/-- C9, C10 -/
theorem test_seImm : got (run1 (regs [(3, 0x2A)]) 0x332A) (fun t => t.pc) = some 0x204 ∧
    got (run1 (regs [(3, 0x2B)]) 0x332A) (fun t => t.pc) = some 0x202 := by decide
/-- C11, C12 -/
theorem test_sneImm : got (run1 (regs [(3, 0x2A)]) 0x432A) (fun t => t.pc) = some 0x202 ∧
    got (run1 (regs []) 0x432A) (fun t => t.pc) = some 0x204 := by decide
/-- C13, C14 -/
theorem test_seReg : got (run1 (regs [(1, 7), (2, 7)]) 0x5120) (fun t => t.pc) = some 0x204 ∧
    got (run1 (regs [(1, 7), (2, 8)]) 0x5120) (fun t => t.pc) = some 0x202 := by decide
/-- C16, C17 -/
theorem test_sneReg : got (run1 (regs [(1, 7), (2, 8)]) 0x9120) (fun t => t.pc) = some 0x204 ∧
    got (run1 (regs [(1, 7), (2, 7)]) 0x9120) (fun t => t.pc) = some 0x202 := by decide
/-- C20 -/
theorem test_jpV0_no_mask : got (run1 (regs [(0, 0xFF)]) 0xBFFF) (fun t => t.pc) = some 0x10FE := by decide

/-! ### Register loads and the ALU -/

/-- A2 -/
theorem test_ldImm_vf : got (run1 State.reset 0x6FFF) (fun t => readV t 15) = some 0xFF := by decide
/-- A4 -/
theorem test_addImm_no_flag : got (run1 (regs [(1, 1), (15, 1)]) 0x71FF) (fun t => (readV t 1, readV t 15)) =
    some (0, 1) := by decide
/-- A6 -/
theorem test_ldReg : got (run1 (regs [(5, 0x33)]) 0x8150) (fun t => readV t 1) = some 0x33 := by decide
/-- A8 -/
theorem test_orReg : got (run1 (regs [(1, 0x0F), (2, 0xF0), (15, 1)]) 0x8121) (fun t => (readV t 1, readV t 15)) =
    some (0xFF, 1) := by decide
/-- A9 -/
theorem test_andReg : got (run1 (regs [(1, 0x3C), (2, 0x0F)]) 0x8122) (fun t => readV t 1) = some 0x0C := by decide
/-- A9b -/
theorem test_xorReg : got (run1 (regs [(1, 0x3C), (2, 0x0F)]) 0x8123) (fun t => readV t 1) = some 0x33 := by decide
/-- A10 -/
theorem test_addReg : got (run1 (regs [(1, 0xFF), (2, 1)]) 0x8124) (fun t => (readV t 1, readV t 15)) =
    some (0, 1) := by decide
/-- A14 -/
theorem test_addReg_flag_wins : got (run1 (regs [(15, 0x80), (1, 0x80)]) 0x8F14) (fun t => readV t 15) =
    some 1 := by decide
/-- A17 -/
theorem test_subReg : got (run1 (regs [(1, 4), (2, 5)]) 0x8125) (fun t => (readV t 1, readV t 15)) =
    some (0xFF, 0) := by decide
/-- A18 -/
theorem test_subReg_equal : got (run1 (regs [(1, 5), (2, 5)]) 0x8125) (fun t => (readV t 1, readV t 15)) =
    some (0, 1) := by decide
/-- W5a -/
theorem test_shr : got (run1 (regs [(1, 0xB3)]) 0x8106) (fun t => (readV t 1, readV t 15)) = some (0x59, 1) := by decide
/-- A25 -/
theorem test_shr_ignores_y : got (run1 (regs [(1, 4), (2, 0xFF)]) 0x8126) (fun t => (readV t 1, readV t 15)) =
    some (2, 0) := by decide
/-- A27 -/
theorem test_subnReg : got (run1 (regs [(1, 5), (2, 3)]) 0x8127) (fun t => (readV t 1, readV t 15)) =
    some (0xFE, 0) := by decide
/-- W5b -/
theorem test_shl : got (run1 (regs [(1, 0xB3)]) 0x810E) (fun t => (readV t 1, readV t 15)) = some (0x66, 1) := by decide
/-- A33 -/
theorem test_shl_vf : got (run1 (regs [(15, 0x80)]) 0x8FFE) (fun t => readV t 15) = some 1 := by decide
/-- A34, for whatever byte is drawn -/
theorem test_rnd : got (exec (.rnd 3 0x0F) State.reset) (fun t => (readV t 3, t.draws, t.pc)) =
    some (Config.randomByte 0 &&& 0x0F, 1, 0x202) := by
  rfl

/-! ### Index register and memory transfers -/

/-- M1 -/
theorem test_ldI : got (run1 State.reset 0xA300) (fun t => t.I) = some 0x0300 := by decide
/-- M4 -/
theorem test_addI_wraps : got (run1 (withI 0xFFFF (regs [(2, 1)])) 0xF21E) (fun t => t.I) = some 0 := by decide
/-- M5 -/
theorem test_addI_no_flag : got (run1 (withI 0x0FFF (regs [(2, 1), (15, 0x55)])) 0xF21E)
    (fun t => (t.I, readV t 15)) = some (0x1000, 0x55) := by decide
/-- M6, M7 -/
theorem test_ldF : got (run1 (regs [(1, 0x07)]) 0xF129) (fun t => t.I) = some 0x0073 ∧
    got (run1 (regs [(1, 0x1A)]) 0xF129) (fun t => t.I) = some 0x0082 := by decide
/-- W8 -/
theorem test_ldB : got (run1 (withI 0x300 (regs [(2, 0x9D)])) 0xF233)
    (fun t => (readByte t 0x300, readByte t 0x301, readByte t 0x302, t.I)) = some (1, 5, 7, 0x300) := by decide
/-- M12 -/
theorem test_ldB_range : got (run1 (withI 0xFFE (regs [(2, 0x9D)])) 0xF233)
    (fun t => (status t, readByte t 0xFFE)) = some ((true, 6, 0x200, 0x200), 0) := by decide
/-- M14 -/
theorem test_dump : got (run1 (withI 0x400 (regs [(0, 0x11), (1, 0x22)])) 0xF155)
    (fun t => (readByte t 0x400, readByte t 0x401, t.I)) = some (0x11, 0x22, 0x400) := by decide
/-- M18 -/
theorem test_dump_reserved : got (run1 (withI 0x1F0 (regs [(0, 1)])) 0xF055) status =
    some (true, 7, 0x200, 0x200) := by decide
/-- M20 -/
theorem test_load_font : got (run1 (withI 0x050 State.reset) 0xF465)
    (fun t => [readV t 0, readV t 1, readV t 2, readV t 3, readV t 4]) =
    some [0xF0, 0x90, 0x90, 0x90, 0xF0] := by decide
/-- M21 -/
theorem test_load_range : got (run1 (withI 0xFFF (withBytes 0xFFF [7] (regs [(0, 9)]))) 0xF165)
    (fun t => (readV t 0, status t)) = some (9, true, 6, 0x200, 0x200) := by decide

/-! ### Display: bit c of a row is column c -/

/-- D1 -/
theorem test_cls : got (run1 (withRow 5 0x80 (regs [(15, 1)])) 0x00E0) (fun t => (t.disp[5], readV t 15)) =
    some (0, 1) := by decide
/-- D2 -/
theorem test_drw_glyph : got (run1 (withI 0x050 State.reset) 0xD015)
    (fun t => ([t.disp[0], t.disp[1], t.disp[3], t.disp[4], t.disp[5]], readV t 15)) =
    some ([0xF, 0x9, 0x9, 0xF, 0], 0) := by decide
/-- D8 -/
theorem test_drw_collision : got (run1 (withI 0x300 (withBytes 0x300 [0x80] (withRow 0 1 State.reset))) 0xD011)
    (fun t => (t.disp[0], readV t 15)) = some (0, 1) := by decide
/-- D3: columns 62 and 63 on, 64 and 65 clipped -/
theorem test_drw_clip : got (run1 (withI 0x050 (regs [(0, 0x3E)])) 0xD011) (fun t => (t.disp[0], readV t 15)) =
    some (0xC000000000000000, 0) := by decide
/-- D12 -/
theorem test_drw_vf_coordinate : got (run1 (withI 0x300 (withBytes 0x300 [0xC0] (regs [(15, 5)]))) 0xDFF1)
    (fun t => (pixel t.disp 5 5, pixel t.disp 5 6, pixel t.disp 5 7, readV t 15)) =
    some (true, true, false, 0) := by decide
/-- D10 -/
theorem test_drw_range : got (run1 (withI 0xFFF (regs [(15, 1)])) 0xD012) (fun t => (readV t 15, status t)) =
    some (1, true, 6, 0x200, 0x200) := by decide

/-! ### Keys and timers -/

/-- K1, K2 -/
theorem test_skp : got (run1 { regs [(4, 0x0A)] with keys := 0x400 } 0xE49E) (fun t => t.pc) = some 0x204 ∧
    got (run1 (regs [(4, 0x0A)]) 0xE49E) (fun t => t.pc) = some 0x202 := by decide
/-- K5 -/
theorem test_skp_range : got (run1 (regs [(4, 0x10)]) 0xE49E) status = some (true, 8, 0x200, 0x200) := by decide
/-- K3, K4 -/
theorem test_sknp : got (run1 (regs [(4, 0x0A)]) 0xE4A1) (fun t => t.pc) = some 0x204 ∧
    got (run1 { regs [(4, 0x0A)] with keys := 0x400 } 0xE4A1) (fun t => t.pc) = some 0x202 := by decide
/-- T1 -/
theorem test_ldVxDT : got (run1 { State.reset with DT := 0x3C } 0xF307) (fun t => readV t 3) = some 0x3C := by decide
/-- T2 -/
theorem test_ldDTVx : got (run1 (regs [(1, 0x3C)]) 0xF115) (fun t => (t.DT, t.ST)) = some (0x3C, 0) := by decide
/-- T3 -/
theorem test_ldSTVx : got (run1 (regs [(1, 2)]) 0xF118) (fun t => (t.DT, t.ST, (outputs t).soundOn)) =
    some (0, 2, true) := by decide
/-- K8 -/
theorem test_ldVxK : got (run1 State.reset 0xF50A) (fun t => (t.wait, t.keyPrev, t.pc, readV t 5)) =
    some (some 5, 0, 0x202, 0) := by decide
/-- K11, the waiting step -/
theorem test_wait_lowest_key : got (step { State.reset with wait := some 5, keys := 0x88, pc := 0x202 })
    (fun t => (readV t 5, t.wait, t.keyPrev, t.pc)) = some (3, none, 0x88, 0x202) := by decide
/-- K10, a key held at entry does not count -/
theorem test_wait_held_key : got (step { State.reset with wait := some 5, keys := 4, keyPrev := 4, pc := 0x202 })
    (fun t => (readV t 5, t.wait, t.pc)) = some (0, some 5, 0x202) := by decide
/-- T5 -/
theorem test_tick : got (step { State.reset with DT := 1, host := [.tick] }) (fun t => (t.DT, t.ST)) =
    some (0, 0) := by decide
/-- T7 -/
theorem test_tick_halted : got (step { State.reset with DT := 5, halted := true, host := [.tick] })
    (fun t => t.DT) = some 5 := by decide
theorem test_setKeys : got (step { State.reset with host := [.setKeys 0x8001] }) (fun t => (t.keys, t.host)) =
    some (0x8001, []) := by decide

/-! ### Reset and load -/

/-- L1 -/
theorem test_reset : got (step { State.reset with I := 7, pc := 3, halted := true, faultCode := .stackOverflow, mem := [(0x300, 1)], host := [.reset] })
    (fun t => t = State.reset) = some True := by
  simp only [got, step, nextOp, perform, hostReset]; exact congrArg some (eq_true rfl)
/-- L2 -/
theorem test_load_too_large (rom : List Byte) (h : rom.length = 3585) : got (hostLoad rom State.reset)
    (fun t => (status t, t.mem, t.loadOpen)) = some ((true, 9, 0x200, 0x200), [], false) := by
  unfold hostLoad; rw [h]; rfl
/-- The `Load` of R341 is admitted after a Reset, from a state in which it was not. -/
theorem test_load_after_reset : got (Host.Core.run Sys2Proof.core 2 { State.reset with loadOpen := false, host := [.reset, .load [0x60]] })
    (fun t : State => (readByte t 0x200, t.loadOpen)) = some (0x60, false) := by decide
/-- R64: the byte at `pc` is the high byte. -/
theorem test_fetch_high_byte_first : (fetch (withBytes 0xFFE [0x60, 0x42] { State.reset with pc := 0xFFE })).toOption = some 0x6042#16 := by decide
/-- R46, R300: what the host reads after X2's fault. -/
theorem test_outputs_fault : got (step { State.reset with pc := 0xFFF })
    (fun t => ((outputs t).halted, (outputs t).faultCode, (outputs t).faultPc)) = some (true, 3, 0xFFF) := by decide
theorem test_load_twice : step { State.reset with loadOpen := false, host := [.load []] } = .refused .loadNotAdmitted := rfl

/-! ### The host's probe -/

theorem test_withFetchWord_halted :
    got (run1 { State.reset with halted := true, faultCode := .illegalOpcode, pc := 0x201, wait := some 1 } 0x6005)
      (fun t => (readV t 0, t.pc, t.halted)) = some (5, 0x202, false) := by decide

/-! ### Witnesses: for each statement with hypotheses, a state and operands that meet them -/

theorem test_witness_RoundTrip : Instr.wf true (.seReg 15 15 0#4) = true ∧ Instr.wf false (.sneReg 15 15 15#4) = true := by
  decide
theorem test_witness_DecodeDeterminesWord : decode false 0x5FFF#16 = .ok (.seReg 15 15 15#4) := by decide
theorem test_witness_DecodeFollowsOpcodeMap : ∃ s s0 : State, Next .cycle s s0 ∧ Running s0 ∧ s0.pc.toNat ≤ 0xFFE ∧
    s0.pc.toNat % 2 = 0 ∧ WordAtPc s0 0#16 ∧ opcodeMapId s0.config.strict59 0#16 = 63 :=
  ⟨{ State.reset with pc := 0xFFE }, { State.reset with pc := 0xFFE }, .inl ⟨rfl, rfl, rfl⟩, ⟨rfl, rfl⟩, by decide, by decide,
    rfl, by decide⟩
theorem test_witness_OpcodeRowsDisjoint : (⟨13, 0xF00F, 0x8004⟩ : OpcodeRow) ∈ opcodeMap true ∧
    rowMatches 0x8124#16 ⟨13, 0xF00F, 0x8004⟩ = true := by decide

/-- `6042` in the last fetchable word. -/
def lastWord : State := withBytes 0xFFE [0x60, 0x42] { State.reset with pc := 0xFFE }

theorem test_witness_StepRuns : Next .cycle lastWord lastWord ∧ Running lastWord ∧ lastWord.pc.toNat ≤ 0xFFE ∧
    lastWord.pc.toNat % 2 = 0 ∧ WordAtPc lastWord 0x6042#16 ∧
    decode lastWord.config.strict59 0x6042#16 = .ok (.ldImm 0 0x42) :=
  ⟨.inl ⟨rfl, rfl, rfl⟩, ⟨rfl, rfl⟩, by decide, by decide, by unfold WordAtPc; decide, by decide⟩
theorem test_witness_StepRuns_listed : Next .cycle { lastWord with host := [.cycle, .tick] } { lastWord with host := [.tick] } :=
  .inr ⟨[.tick], rfl, rfl⟩
theorem test_witness_FetchOutOfRange : ∃ s : State, Next .cycle s s ∧ Running s ∧ s.pc.toNat = 0xFFF :=
  ⟨{ State.reset with pc := 0xFFF }, .inl ⟨rfl, rfl, rfl⟩, ⟨rfl, rfl⟩, rfl⟩
theorem test_witness_FetchMisaligned : ∃ s : State, Next .cycle s s ∧ Running s ∧ s.pc.toNat = 0xFFD ∧
    s.pc.toNat ≤ 0xFFE ∧ s.pc.toNat % 2 = 1 :=
  ⟨{ State.reset with pc := 0xFFD }, .inl ⟨rfl, rfl, rfl⟩, ⟨rfl, rfl⟩, rfl, by decide, by decide⟩

/-- A halted core. -/
def halted : State := { State.reset with halted := true, faultCode := .illegalOpcode, faultPc := 0x200, loadOpen := false }

theorem test_witness_HaltedCycle : halted.halted = true ∧ Next .cycle halted halted ∧
    Next .cycle { halted with host := [.cycle] } halted := ⟨rfl, .inl ⟨rfl, rfl, rfl⟩, .inr ⟨[], rfl, rfl⟩⟩
theorem test_witness_HaltedOps : Next .tick { halted with host := [.tick] } halted ∧
    Next (.setKeys 0xFFFF) { halted with host := [.setKeys 0xFFFF] } halted ∧
    Next (.load []) { halted with host := [.load []] } halted ∧ Next .reset { halted with host := [.reset] } halted :=
  ⟨.inr ⟨[], rfl, rfl⟩, .inr ⟨[], rfl, rfl⟩, .inr ⟨[], rfl, rfl⟩, .inr ⟨[], rfl, rfl⟩⟩
theorem test_witness_HaltedForever : { halted with host := [.cycle, .tick, .setKeys 1] }.halted = true ∧
    NoResetNoLoad [.cycle, .tick, .setKeys 1] := ⟨rfl, by simp [NoResetNoLoad]⟩

/-- Waiting for a key into VF, with keys 3 and 15 down and key 3 held before. -/
def waitingState : State := { State.reset with wait := some 15, keys := 0x8008, keyPrev := 0x0008 }

theorem test_witness_Waiting_new : Next .cycle waitingState waitingState ∧ waitingState.halted = false ∧
    waitingState.wait = some 15 ∧ (15 < 16 ∧ waitingState.keys.getLsbD 15 = true ∧ waitingState.keyPrev.getLsbD 15 = false) ∧
    ∀ j, j < 15 → ¬ (waitingState.keys.getLsbD j = true ∧ waitingState.keyPrev.getLsbD j = false) :=
  ⟨.inl ⟨rfl, rfl, rfl⟩, rfl, rfl, by decide, by decide⟩
theorem test_witness_Waiting_none : ∃ s : State, Next .cycle s s ∧ s.halted = false ∧ s.wait = some 0 ∧
    ∀ k, k < 16 → ¬ (s.keys.getLsbD k = true ∧ s.keyPrev.getLsbD k = false) :=
  ⟨{ State.reset with wait := some 0, keys := 8, keyPrev := 8 }, .inl ⟨rfl, rfl, rfl⟩, rfl, rfl, by decide⟩
theorem test_witness_Tick : Next .tick { State.reset with host := [.tick] } State.reset ∧ State.reset.halted = false :=
  ⟨.inr ⟨[], rfl, rfl⟩, rfl⟩
theorem test_witness_Tick_halted : Next .tick { halted with host := [.tick] } halted ∧ halted.halted = true :=
  ⟨.inr ⟨[], rfl, rfl⟩, rfl⟩
theorem test_witness_SetKeys : Next (.setKeys 0) { halted with host := [.setKeys 0] } halted := .inr ⟨[], rfl, rfl⟩
theorem test_witness_Reset : Next .reset { halted with host := [.reset, .tick] } { halted with host := [.tick] } :=
  .inr ⟨[.tick], rfl, rfl⟩
theorem test_witness_Reset_only_way_out : ∃ t, halted.halted = true ∧ step { halted with host := [.reset] } = .next t ∧
    t.halted = false := ⟨_, rfl, rfl, rfl⟩
theorem test_witness_Load : ∃ (s : State) (rom : List Byte), Next (.load rom) s State.reset ∧
    State.reset.loadOpen = true ∧ State.reset.halted = false ∧ rom.length = 3584 ∧ MemCanonical State.reset :=
  ⟨{ State.reset with host := [.load (List.replicate 3584 0xAA)] }, List.replicate 3584 0xAA, .inr ⟨[], rfl, rfl⟩, rfl, rfl,
    List.length_replicate, rfl⟩
theorem test_witness_Load_large : ∃ (s : State) (rom : List Byte), Next (.load rom) s State.reset ∧
    State.reset.loadOpen = true ∧ State.reset.halted = false ∧ rom.length = 3585 :=
  ⟨{ State.reset with host := [.load (List.replicate 3585 0)] }, List.replicate 3585 0, .inr ⟨[], rfl, rfl⟩, rfl, rfl,
    List.length_replicate⟩
theorem test_witness_Load_refused : Next (.load []) { halted with host := [.load []] } halted ∧ halted.loadOpen = false :=
  ⟨.inr ⟨[], rfl, rfl⟩, rfl⟩
theorem test_witness_RegisterSkips : (15#4 : Nibble) ≠ 0#4 := by decide
theorem test_witness_Jump : (0xFFF#12 : Addr12).toNat = 0xFFF ∧ (0xFFD#12 : Addr12).toNat % 2 = 1 ∧
    (0xFFD#12 : Addr12).toNat ≠ 0xFFF := by decide
theorem test_witness_JumpWithOffset : 0xFFE < (0xFFF#12 : Addr12).toNat + (readV (regs [(0, 0xFF)]) 0).toNat ∧
    (0xFF0#12 : Addr12).toNat + (readV (regs [(0, 0x0D)]) 0).toNat = 0xFFD := by decide
theorem test_witness_Jump_next : ∃ t, exec (.jp 0xFFF#12) State.reset = .next t ∧ Next .cycle t t ∧ Running t :=
  ⟨_, rfl, .inl ⟨rfl, rfl, rfl⟩, ⟨rfl, rfl⟩⟩
theorem test_witness_JumpWithOffset_next : ∃ t, exec (.jpV0 0xFFF#12) (regs [(0, 0xFF)]) = .next t ∧ Next .cycle t t ∧
    Running t ∧ t.pc = 0x10FE := ⟨_, rfl, .inl ⟨rfl, rfl, rfl⟩, ⟨rfl, rfl⟩, by decide⟩
theorem test_witness_Call : ({ State.reset with sp := 15 } : State).sp.val = (15 : Fin 16).val ∧
    State.reset.sp.val = (0 : Fin 16).val ∧ ({ State.reset with sp := 16 } : State).sp.val = 16 := by decide
theorem test_witness_Return : ({ State.reset with sp := 16 } : State).sp.val = (15 : Fin 16).val + 1 ∧
    ({ State.reset with sp := 1 } : State).sp.val = (0 : Fin 16).val + 1 ∧ State.reset.sp.val = 0 := by decide
theorem test_witness_CallThenReturn : ∃ s u t : State, s.sp.val < 16 ∧ exec (.call 0x300) s = .next t ∧ u.stack = t.stack ∧
    u.sp = t.sp := ⟨{ State.reset with sp := 15 }, _, _, by decide, rfl, rfl, rfl⟩
theorem test_witness_AddRegisters : (1 : Reg) ≠ flagReg := by decide
theorem test_witness_Bcd : MemCanonical (withI 0xFFD State.reset) ∧ 0x200 ≤ (withI 0xFFD State.reset).I.toNat ∧
    (withI 0xFFD State.reset).I.toNat + 2 ≤ 0xFFF := by refine ⟨rfl, ?_, ?_⟩ <;> decide
theorem test_witness_Dump : MemCanonical (withI 0xFF0 State.reset) ∧ 0x200 ≤ (withI 0xFF0 State.reset).I.toNat ∧
    (withI 0xFF0 State.reset).I.toNat + (15 : Reg).val ≤ 0xFFF := by refine ⟨rfl, ?_, ?_⟩ <;> decide
theorem test_witness_Load_registers : (withI 0xFF0 State.reset).I.toNat + (15 : Reg).val ≤ 0xFFF ∧
    State.reset.I.toNat + (15 : Reg).val ≤ 0xFFF ∧ (0 : Reg) < 15 := by decide
theorem test_witness_DataFaults : (withI 0x1FF State.reset).I.toNat < 0x200 ∧ 0xFFF < (withI 0xFFE State.reset).I.toNat + 2 ∧
    0xFFF < (withI 0xFFF State.reset).I.toNat + (1 : Reg).val ∧ (2#4 : Nibble) ≠ 0#4 ∧
    0x1000 < (withI 0xFFF State.reset).I.toNat + (2#4 : Nibble).toNat := by decide
theorem test_witness_FetchSees : (14 : Reg).val + 1 = (15 : Reg).val ∧ (15 : Reg) ≤ 15 ∧
    ((withI 0xFF0 State.reset).I.toNat + (14 : Reg).val) % 2 = 0 := by decide
theorem test_witness_Draw : (15#4 : Nibble) = 0#4 ∨ (withI 0xFF1 State.reset).I.toNat + (15#4 : Nibble).toNat ≤ 0x1000 := by
  decide
/-- One sprite byte at 0x300. -/
def dot (b : Byte) : State := withI 0x300 (withBytes 0x300 [b] State.reset)

theorem test_witness_Draw_collides : got (exec (.drw 0 1 1#4) (withRow 0 1 (dot 0x80)))
    (fun t => (pixel (withRow 0 1 (dot 0x80)).disp 0 0, pixel t.disp 0 0)) = some (true, false) := by decide
theorem test_witness_Draw_no_collision : ∃ t, exec (.drw 0 1 1#4) (dot 0x80) = .next t ∧
    ∀ r c, r < 32 → c < 64 → pixel (dot 0x80).disp r c = true → pixel t.disp r c = true :=
  ⟨_, rfl, fun r c _ _ h => by simp [dot, withI, withBytes, State.reset, pixel] at h⟩
theorem test_witness_DrawTwice : got (exec (.drw 0 1 1#4) (dot 0x80))
    (fun t => (readV t 0 == readV (dot 0x80) 0, readV t 1 == readV (dot 0x80) 1)) = some (true, true) := by decide
theorem test_witness_KeySkips : (readV (regs [(0, 15)]) 0).toNat ≤ 15 ∧ 15 < (readV (regs [(0, 16)]) 0).toNat := by decide
theorem test_witness_exec_answers : ∃ t, exec (.addReg 1 2) State.reset = .next t ∧ mayWrite (.addReg 1 2) 0 = false :=
  ⟨_, rfl, by decide⟩
theorem test_witness_OnlyListed : ∃ t, exec (.skp 0) State.reset = .next t ∧ (∀ x, Instr.skp 0 ≠ .ldB x) ∧
    (∀ x, Instr.skp 0 ≠ .dump x) ∧ Instr.skp 0 ≠ .ret := ⟨_, rfl, by simp, by simp, by simp⟩
theorem test_witness_MemoryStaysCanonical : ∃ s t : State, MemCanonical s ∧ ReservedIntact s ∧ step s = .next t :=
  ⟨State.reset, _, rfl, fun _ _ => rfl, rfl⟩
theorem test_witness_StatusStaysConsistent : ∃ s t : State, StatusConsistent s ∧ step s = .next t :=
  ⟨State.reset, _, ⟨by decide, by decide, by decide, by decide⟩, rfl⟩
theorem test_witness_PcStaysBounded : ∃ s t : State, PcBounded s ∧ step s = .next t :=
  ⟨State.reset, _, ⟨by decide, by decide, by decide⟩, rfl⟩
theorem test_witness_HostReads : (FaultCode.romTooLarge, 9) ∈ [(FaultCode.stackOverflow, 1), (.stackUnderflow, 2),
    (.fetchOutOfRange, 3), (.misalignedFetch, 4), (.illegalOpcode, 5), (.dataOutOfRange, 6), (.reservedWrite, 7),
    (.keyIndexOutOfRange, 8), (.romTooLarge, 9)] := by decide
theorem test_witness_CanonicalMemory : Memory.wf defaultFont [(0x050, 1), (0x300, 5), (0xFFF, 7)] = true := by decide

end Sys2Proof.Tests
end

/-! ## Decoding a word given by its number, and the conditional skips (30_encoding R83, R84; 41_control_flow R110) -/

namespace Sys2Proof.Proofs

open Sys2Proof Sys2Proof.Machine Sys2Proof.Claims

/-! ### Words of layout `o x nn` -/

/-- The number of layout `o x nn` (R83) is the word the encoder writes for it. -/
theorem ofNat_numXB (op : BitVec 4) (x : Reg) (nn : Byte) : BitVec.ofNat 16 (numXB op.toNat x nn) = wordXB op x nn := by
  rw [numXB, ← wordXB_toNat, BitVec.ofNat_toNat, BitVec.setWidth_eq]

/-- A number of layout `o x nn` decodes as the word it numbers does. -/
theorem decodesAs_numXB {op : BitVec 4} {x : Reg} {nn : Byte} {i : Instr} {id : Nat}
    (hdecode : ∀ strict, decode strict (wordXB op x nn) = .ok i) (hid : opId i = id) :
    DecodesAs (numXB op.toNat x nn) i id :=
  ⟨fun strict => by rw [ofNat_numXB, hdecode], hid⟩

theorem decode_wordXB_seImm (strict : Bool) (x : Reg) (nn : Byte) :
    decode strict (wordXB 0x3#4 x nn) = .ok (.seImm x nn) := by
  simp [decode]

theorem decode_wordXB_sneImm (strict : Bool) (x : Reg) (nn : Byte) :
    decode strict (wordXB 0x4#4 x nn) = .ok (.sneImm x nn) := by
  simp [decode]

/-! ### What a skip changes and what it leaves -/

theorem skipIf_sameRegs (c : Bool) (s : State) : SameRegs s (skipIf c s) := readV_skipIf c s

theorem skipIf_sameBytes (c : Bool) (s : State) : SameBytes s (skipIf c s) := readByte_skipIf c s

theorem skipIf_sameRest (c : Bool) (s : State) : SameRest s (skipIf c s) := by
  simp [SameRest, SameStack, SameTimers, SameWait, SameStatus, SameOutside]

/-- An instruction that ends in the skip of R110 on a test for `P` moves `pc` by 4 when `P` holds and by 2 when not,
and touches nothing else. -/
theorem exec_skip_spec {i : Instr} {s : State} {c : Bool} {P : Prop} [Decidable P]
    (hexec : exec i s = .next (skipIf c s)) (htest : c = true ↔ P) :
    ∃ t, exec i s = .next t ∧ t.pc = (if P then s.pc + 4 else s.pc + 2) ∧ SameRegs s t ∧ SameBytes s t ∧ SameRest s t := by
  have hpc : (skipIf c s).pc = if P then s.pc + 4 else s.pc + 2 := (skipIf_pc c s).trans (if_congr htest rfl rfl)
  exact ⟨skipIf c s, hexec, hpc, skipIf_sameRegs c s, skipIf_sameBytes c s, skipIf_sameRest c s⟩

theorem exec_seImm (x : Reg) (nn : Byte) (s : State) : exec (.seImm x nn) s = .next (skipIf (readV s x == nn) s) := rfl

theorem exec_sneImm (x : Reg) (nn : Byte) (s : State) : exec (.sneImm x nn) s = .next (skipIf (readV s x != nn) s) := rfl

/-- Settles O17: each word decodes by its layout, and each instruction is the shared skip on its own test. -/
theorem immediateSkips : Obligations.ImmediateSkips := by
  intro x nn s
  refine ⟨?decodeSe, ?decodeSne, ?execSe, ?execSne⟩
  case decodeSe => exact decodesAs_numXB (op := 0x3#4) (fun strict => decode_wordXB_seImm strict x nn) rfl
  case decodeSne => exact decodesAs_numXB (op := 0x4#4) (fun strict => decode_wordXB_sneImm strict x nn) rfl
  case execSe => exact exec_skip_spec (exec_seImm x nn s) beq_iff_eq
  case execSne => exact exec_skip_spec (exec_sneImm x nn s) bne_iff_ne

end Sys2Proof.Proofs

/-! ## Loads and the ALU without a flag (42_alu R141 to R146) -/

namespace Sys2Proof.Proofs

open Sys2Proof Sys2Proof.Machine Sys2Proof.Claims

/-! ### Words of layout `o x y n` -/

/-- The number of layout `o x y n` (R83) is the word the encoder writes for it. -/
theorem ofNat_numXYN (op : BitVec 4) (x y : Reg) (n : Nibble) :
    BitVec.ofNat 16 (numXYN op.toNat x y n.toNat) = wordXYN op x y n := by
  rw [numXYN, ← wordXYN_toNat, BitVec.ofNat_toNat, BitVec.setWidth_eq]

/-- A number of layout `o x y n` decodes as the word it numbers does. -/
theorem decodesAs_numXYN {op : BitVec 4} {x y : Reg} {n : Nibble} {i : Instr} {id : Nat}
    (hdecode : ∀ strict, decode strict (wordXYN op x y n) = .ok i) (hid : opId i = id) :
    DecodesAs (numXYN op.toNat x y n.toNat) i id :=
  ⟨fun strict => by rw [ofNat_numXYN, hdecode], hid⟩

theorem decode_wordXB_ldImm (strict : Bool) (x : Reg) (nn : Byte) :
    decode strict (wordXB 0x6#4 x nn) = .ok (.ldImm x nn) := by
  simp [decode]

theorem decode_wordXB_addImm (strict : Bool) (x : Reg) (nn : Byte) :
    decode strict (wordXB 0x7#4 x nn) = .ok (.addImm x nn) := by
  simp [decode]

/-- Family 0x8 (R84): what its nibble dispatch answers is what the word decodes to. -/
theorem decodesAs_family8 {x y : Reg} {n : Nibble} {i : Instr} {id : Nat}
    (hfamily : decodeFamily8 (wordXYN 0x8#4 x y n) = .ok i) (hid : opId i = id) :
    DecodesAs (numXYN 0x8 x y n.toNat) i id :=
  decodesAs_numXYN (op := 0x8#4) (fun strict => by simp [decode, hfamily]) hid

theorem decodeFamily8_ldReg (x y : Reg) : decodeFamily8 (wordXYN 0x8#4 x y 0x0#4) = .ok (.ldReg x y) := by
  simp [decodeFamily8]

theorem decodeFamily8_orReg (x y : Reg) : decodeFamily8 (wordXYN 0x8#4 x y 0x1#4) = .ok (.orReg x y) := by
  simp [decodeFamily8]

theorem decodeFamily8_andReg (x y : Reg) : decodeFamily8 (wordXYN 0x8#4 x y 0x2#4) = .ok (.andReg x y) := by
  simp [decodeFamily8]

theorem decodeFamily8_xorReg (x y : Reg) : decodeFamily8 (wordXYN 0x8#4 x y 0x3#4) = .ok (.xorReg x y) := by
  simp [decodeFamily8]

/-! ### What writing one register and advancing changes and what it leaves -/

theorem writeV_advance_sameRegsBut (x : Reg) (v : Byte) (s : State) : SameRegsBut x s (writeV x v (advance s)) :=
  fun _ hne => readV_writeV_ne hne v (advance s)

theorem writeV_advance_sameBytes (x : Reg) (v : Byte) (s : State) : SameBytes s (writeV x v (advance s)) :=
  fun a => readByte_writeV x v (advance s) a

theorem writeV_advance_sameRest (x : Reg) (v : Byte) (s : State) : SameRest s (writeV x v (advance s)) := by
  simp [SameRest, SameStack, SameTimers, SameWait, SameStatus, SameOutside]

/-- An instruction that writes `v` to `x` and advances leaves in `x` whatever is true of `v`, moves `pc` by 2, and
touches no other register (VF among them) and nothing else. -/
theorem exec_writeV_spec {i : Instr} {s : State} {x : Reg} {v : Byte} (P : Byte → Prop)
    (hexec : exec i s = .next (writeV x v (advance s))) (hv : P v) :
    ∃ t, exec i s = .next t ∧ P (readV t x) ∧ t.pc = s.pc + 2 ∧ SameRegsBut x s t ∧ SameBytes s t ∧ SameRest s t := by
  have hread : P (readV (writeV x v (advance s)) x) := (readV_writeV_same x v (advance s)).symm ▸ hv
  exact ⟨writeV x v (advance s), hexec, hread, rfl, writeV_advance_sameRegsBut x v s, writeV_advance_sameBytes x v s,
    writeV_advance_sameRest x v s⟩

theorem exec_ldImm (x : Reg) (nn : Byte) (s : State) : exec (.ldImm x nn) s = .next (writeV x nn (advance s)) := rfl

theorem exec_ldReg (x y : Reg) (s : State) : exec (.ldReg x y) s = .next (writeV x (readV s y) (advance s)) := rfl

theorem exec_addImm (x : Reg) (nn : Byte) (s : State) :
    exec (.addImm x nn) s = .next (writeV x (readV s x + nn) (advance s)) := rfl

theorem exec_orReg (x y : Reg) (s : State) :
    exec (.orReg x y) s = .next (writeV x (readV s x ||| readV s y) (advance s)) := rfl

theorem exec_andReg (x y : Reg) (s : State) :
    exec (.andReg x y) s = .next (writeV x (readV s x &&& readV s y) (advance s)) := rfl

theorem exec_xorReg (x y : Reg) (s : State) :
    exec (.xorReg x y) s = .next (writeV x (readV s x ^^^ readV s y) (advance s)) := rfl

/-! ### The statements -/

/-- Settles O24: each word decodes by its layout, and each load is one register write of the value loaded. -/
theorem loadAndCopyRegister : Obligations.LoadAndCopyRegister := by
  intro x y nn s
  refine ⟨?decodeImm, ?decodeCopy, ?execImm, ?execCopy⟩
  case decodeImm => exact decodesAs_numXB (op := 0x6#4) (fun strict => decode_wordXB_ldImm strict x nn) rfl
  case decodeCopy => exact decodesAs_family8 (n := 0x0#4) (decodeFamily8_ldReg x y) rfl
  case execImm => exact exec_writeV_spec (· = nn) (exec_ldImm x nn s) rfl
  case execCopy => exact exec_writeV_spec (· = readV s y) (exec_ldReg x y s) rfl

/-- Settles O25: the instruction is one register write, of a byte sum that wraps at 256. -/
theorem addImmediateSetsNoFlag : Obligations.AddImmediateSetsNoFlag := by
  intro x nn s
  refine ⟨?decodeAdd, ?execAdd⟩
  case decodeAdd => exact decodesAs_numXB (op := 0x7#4) (fun strict => decode_wordXB_addImm strict x nn) rfl
  case execAdd =>
    exact exec_writeV_spec (·.toNat = ((readV s x).toNat + nn.toNat) % 256) (exec_addImm x nn s)
      (BitVec.toNat_add (readV s x) nn)

/-- Settles O26: each instruction is one register write, of the byte operation that acts on each bit alone. -/
theorem bitwiseLogic : Obligations.BitwiseLogic := by
  intro x y s
  refine ⟨?decodeOr, ?decodeAnd, ?decodeXor, ?execOr, ?execAnd, ?execXor⟩
  case decodeOr => exact decodesAs_family8 (n := 0x1#4) (decodeFamily8_orReg x y) rfl
  case decodeAnd => exact decodesAs_family8 (n := 0x2#4) (decodeFamily8_andReg x y) rfl
  case decodeXor => exact decodesAs_family8 (n := 0x3#4) (decodeFamily8_xorReg x y) rfl
  case execOr =>
    exact exec_writeV_spec (fun v => ∀ b, v.getLsbD b = ((readV s x).getLsbD b || (readV s y).getLsbD b))
      (exec_orReg x y s) (fun _ => BitVec.getLsbD_or)
  case execAnd =>
    exact exec_writeV_spec (fun v => ∀ b, v.getLsbD b = ((readV s x).getLsbD b && (readV s y).getLsbD b))
      (exec_andReg x y s) (fun _ => BitVec.getLsbD_and)
  case execXor =>
    exact exec_writeV_spec (fun v => ∀ b, v.getLsbD b = ((readV s x).getLsbD b ^^ (readV s y).getLsbD b))
      (exec_xorReg x y s) (fun _ => BitVec.getLsbD_xor)

end Sys2Proof.Proofs

/-! ## Loads of the index register (43_index_memory R180, R182) -/

namespace Sys2Proof.Proofs

open Sys2Proof Sys2Proof.Machine Sys2Proof.Claims

/-! ### Words of layout `o nnn`, and of family 0xF -/

/-- The number of layout `o nnn` (R83) is the word the encoder writes for it. -/
theorem ofNat_numA (op : BitVec 4) (nnn : Addr12) : BitVec.ofNat 16 (numA op.toNat nnn) = wordA op nnn := by
  rw [numA, ← wordA_toNat, BitVec.ofNat_toNat, BitVec.setWidth_eq]

/-- A number of layout `o nnn` decodes as the word it numbers does. -/
theorem decodesAs_numA {op : BitVec 4} {nnn : Addr12} {i : Instr} {id : Nat}
    (hdecode : ∀ strict, decode strict (wordA op nnn) = .ok i) (hid : opId i = id) :
    DecodesAs (numA op.toNat nnn) i id :=
  ⟨fun strict => by rw [ofNat_numA, hdecode], hid⟩

theorem decode_wordA_ldI (strict : Bool) (nnn : Addr12) : decode strict (wordA 0xA#4 nnn) = .ok (.ldI nnn) := by
  simp [decode]

/-- Family 0xF (R84): what its dispatch on the low byte answers is what the word decodes to. -/
theorem decodesAs_familyF {x : Reg} {nn : Byte} {i : Instr} {id : Nat}
    (hfamily : decodeFamilyF (wordXB 0xF#4 x nn) = .ok i) (hid : opId i = id) : DecodesAs (numXB 0xF x nn) i id :=
  decodesAs_numXB (op := 0xF#4) (fun strict => by simp [decode, hfamily]) hid

theorem decodeFamilyF_ldF (x : Reg) : decodeFamilyF (wordXB 0xF#4 x 0x29#8) = .ok (.ldF x) := by
  simp [decodeFamilyF]

/-! ### What loading the index register and advancing changes and what it leaves -/

theorem setI_advance_sameRegs (a : Word) (s : State) : SameRegs s (setI a (advance s)) :=
  fun r => readV_setI a (advance s) r

theorem setI_advance_sameBytes (a : Word) (s : State) : SameBytes s (setI a (advance s)) :=
  fun b => readByte_setI a (advance s) b

/-- An instruction that loads `I` with `a` and advances leaves the number of `a` in `I`, moves `pc` by 2, and touches
nothing else. -/
theorem exec_setI_spec {i : Instr} {s : State} {a : Word} {n : Nat}
    (hexec : exec i s = .next (setI a (advance s))) (ha : a.toNat = n) :
    ∃ t, exec i s = .next t ∧ t.I.toNat = n ∧ t.pc = s.pc + 2 ∧ SameRegs s t ∧ SameBytes s t ∧
      SameStack s t ∧ SameTimers s t ∧ t.disp = s.disp ∧ SameWait s t ∧ SameStatus s t ∧ t.draws = s.draws ∧
      SameOutside s t := by
  refine ⟨setI a (advance s), hexec, ha, rfl, setI_advance_sameRegs a s, setI_advance_sameBytes a s, ?rest⟩
  case rest => simp [SameStack, SameTimers, SameWait, SameStatus, SameOutside]

theorem exec_ldI (nnn : Addr12) (s : State) : exec (.ldI nnn) s = .next (setI (zext12 nnn) (advance s)) := rfl

theorem exec_ldF (x : Reg) (s : State) : exec (.ldF x) s = .next (setI (glyphAddr (readV s x)) (advance s)) := rfl

/-! ### The statements -/

/-- Settles O31: the word decodes by its layout, and the instruction loads `I` with its zero-extended address. -/
theorem loadIndex : Obligations.LoadIndex := by
  intro nnn s
  refine ⟨?decodes, ?executes⟩
  case decodes => exact decodesAs_numA (op := 0xA#4) (fun strict => decode_wordA_ldI strict nnn) rfl
  case executes => exact exec_setI_spec (exec_ldI nnn s) (zext12_toNat nnn)

/-- Settles O33: the word decodes in family 0xF, and the instruction loads `I` with the glyph address of Vx. -/
theorem glyphAddress : Obligations.GlyphAddress := by
  intro x s
  refine ⟨?decodes, ?executes⟩
  case decodes => exact decodesAs_familyF (decodeFamilyF_ldF x) rfl
  case executes => exact exec_setI_spec (exec_ldF x s) (glyphAddr_toNat (readV s x))

end Sys2Proof.Proofs

/-! ## Clearing the display (44_display R200) -/

namespace Sys2Proof.Proofs

open Sys2Proof Sys2Proof.Machine Sys2Proof.Claims

/-- Family 0x0 (R84): its whole-word dispatch finds CLS, whatever STRICT_5_9 is. -/
theorem decode_cls (strict : Bool) : decode strict 0x00E0#16 = .ok .cls := rfl

/-! ### What replacing the buffer and advancing leaves -/

theorem setDisp_advance_sameRegs (d : Display) (s : State) : SameRegs s (advance { s with disp := d }) :=
  fun r => readV_advance { s with disp := d } r

theorem setDisp_advance_sameBytes (d : Display) (s : State) : SameBytes s (advance { s with disp := d }) :=
  fun a => readByte_advance { s with disp := d } a

/-- An instruction that puts the buffer `d` on the screen and advances shows the pixels of `d`, moves `pc` by 2, and
touches nothing else. -/
theorem exec_setDisp_spec {i : Instr} {s : State} {d : Display}
    (hexec : exec i s = .next (advance { s with disp := d })) :
    ∃ t, exec i s = .next t ∧ t.disp = d ∧ t.pc = s.pc + 2 ∧ SameRegs s t ∧ SameBytes s t ∧ t.I = s.I ∧
      SameStack s t ∧ SameTimers s t ∧ SameWait s t ∧ SameStatus s t ∧ t.draws = s.draws ∧ SameOutside s t := by
  refine ⟨advance { s with disp := d }, hexec, rfl, rfl, setDisp_advance_sameRegs d s, setDisp_advance_sameBytes d s,
    ?rest⟩
  case rest => simp [SameStack, SameTimers, SameWait, SameStatus, SameOutside]

theorem exec_cls (s : State) : exec .cls s = .next (advance { s with disp := blankDisplay }) := rfl

/-! ### The statement -/

/-- Settles O40: the word decodes in family 0x0, and the instruction replaces the buffer by the blank one. -/
theorem clearDisplay : Obligations.ClearDisplay := by
  refine ⟨?decodes, ?executes⟩
  case decodes => exact ⟨decode_cls, rfl⟩
  case executes =>
    intro s
    obtain ⟨t, hexec, hdisp, hframe⟩ := exec_setDisp_spec (exec_cls s)
    have hoff (r c : Nat) : pixel t.disp r c = false := hdisp ▸ pixel_blank r c
    exact ⟨t, hexec, hoff, hframe⟩

end Sys2Proof.Proofs

/-! ## Moves between a register and the timers (45_keys_timers R222, R225, R226) -/

namespace Sys2Proof.Proofs

open Sys2Proof Sys2Proof.Machine Sys2Proof.Claims

theorem decodeFamilyF_ldVxDT (x : Reg) : decodeFamilyF (wordXB 0xF#4 x 0x07#8) = .ok (.ldVxDT x) := by
  simp [decodeFamilyF]

theorem decodeFamilyF_ldDTVx (x : Reg) : decodeFamilyF (wordXB 0xF#4 x 0x15#8) = .ok (.ldDTVx x) := by
  simp [decodeFamilyF]

theorem decodeFamilyF_ldSTVx (x : Reg) : decodeFamilyF (wordXB 0xF#4 x 0x18#8) = .ok (.ldSTVx x) := by
  simp [decodeFamilyF]

/-- The host hears a sound exactly while ST is not 0 (R229). -/
theorem outputs_soundOn (s : State) : (outputs s).soundOn = (s.ST != 0) := rfl

/-! ### What loading the timers and advancing leaves -/

theorem setTimers_advance_sameRegs (d u : Byte) (s : State) : SameRegs s (advance { s with DT := d, ST := u }) :=
  fun r => readV_advance { s with DT := d, ST := u } r

theorem setTimers_advance_sameBytes (d u : Byte) (s : State) : SameBytes s (advance { s with DT := d, ST := u }) :=
  fun a => readByte_advance { s with DT := d, ST := u } a

/-- An instruction that puts `d` in DT and `u` in ST and advances moves `pc` by 2 and touches nothing else. One that
loads a single timer is the case where the other is given its old value. -/
theorem exec_setTimers_spec {i : Instr} {s : State} {d u : Byte}
    (hexec : exec i s = .next (advance { s with DT := d, ST := u })) :
    ∃ t, exec i s = .next t ∧ t.DT = d ∧ t.ST = u ∧ t.pc = s.pc + 2 ∧ SameRegs s t ∧ SameBytes s t ∧ t.I = s.I ∧
      SameStack s t ∧ t.disp = s.disp ∧ SameWait s t ∧ SameStatus s t ∧ t.draws = s.draws ∧ SameOutside s t := by
  refine ⟨advance { s with DT := d, ST := u }, hexec, rfl, rfl, rfl, setTimers_advance_sameRegs d u s,
    setTimers_advance_sameBytes d u s, ?rest⟩
  case rest => simp [SameStack, SameWait, SameStatus, SameOutside]

theorem exec_ldVxDT (x : Reg) (s : State) : exec (.ldVxDT x) s = .next (writeV x s.DT (advance s)) := rfl

theorem exec_ldDTVx (x : Reg) (s : State) :
    exec (.ldDTVx x) s = .next (advance { s with DT := readV s x, ST := s.ST }) := rfl

theorem exec_ldSTVx (x : Reg) (s : State) :
    exec (.ldSTVx x) s = .next (advance { s with DT := s.DT, ST := readV s x }) := rfl

/-! ### The statement -/

/-- Settles O45: each word decodes in family 0xF; reading DT is one register write, and loading DT or ST keeps the
other timer. `sound_on` follows the ST just loaded. -/
theorem timerMoves : Obligations.TimerMoves := by
  intro x s
  refine ⟨?decodeReadDT, ?decodeLoadDT, ?decodeLoadST, ?execReadDT, ?execLoadDT, ?execLoadST⟩
  case decodeReadDT => exact decodesAs_familyF (decodeFamilyF_ldVxDT x) rfl
  case decodeLoadDT => exact decodesAs_familyF (decodeFamilyF_ldDTVx x) rfl
  case decodeLoadST => exact decodesAs_familyF (decodeFamilyF_ldSTVx x) rfl
  case execReadDT => exact exec_writeV_spec (· = s.DT) (exec_ldVxDT x s) rfl
  case execLoadDT => exact exec_setTimers_spec (exec_ldDTVx x s)
  case execLoadST =>
    obtain ⟨t, hexec, hDT, hST, hframe⟩ := exec_setTimers_spec (exec_ldSTVx x s)
    have hsound : (outputs t).soundOn = (readV s x != 0) := hST ▸ outputs_soundOn t
    exact ⟨t, hexec, hST, hDT, hsound, hframe⟩

end Sys2Proof.Proofs

/-! ## The step performs the host's next operation (70_reset R343, R344; 30_encoding R91) -/

namespace Sys2Proof.Proofs

open Sys2Proof Sys2Proof.Machine Sys2Proof.Claims

theorem step_of_next {op : HostOp} {s s0 : State} (hnext : Next op s s0) : step s = perform op s0 := by
  obtain ⟨hhost, rfl, rfl⟩ | ⟨rest, hhost, rfl⟩ := hnext <;> simp [step, nextOp, hhost]

theorem step_of_next_cycle {s s0 : State} (hnext : Next .cycle s s0) : step s = cycle s0 := step_of_next hnext

/-- The word at `pc` is the one a fetch reads there. -/
theorem eq_fetchWord_of_wordAtPc {s : State} {w : Word} (hword : WordAtPc s w) : w = fetchWord s s.pc.toNat :=
  eq_fetchWord hword

/-- A Cycle of a running core whose fetch or decoding faults takes that fault. -/
theorem step_fault {s s0 : State} {c : FaultCode} (hnext : Next .cycle s s0) (hrun : Running s0)
    (hfetch : fetchInstr (beginCycle s0) = .error c) : step s = .next (faulted c { s0 with loadOpen := false }) :=
  (step_of_next_cycle hnext).trans (cycle_fault hrun.1 hrun.2 hfetch)

/-- Settles O8: the word at `pc` is the one the cycle fetches, decodes and runs. -/
theorem stepRunsDecodedInstruction : Obligations.StepRunsDecodedInstruction := by
  intro s s0 w i hnext ⟨hhalted, hwait⟩ hpc heven hword hdecode
  rw [eq_fetchWord_of_wordAtPc hword] at hdecode
  have hfetch : fetchInstr (beginCycle s0) = .ok i := fetchInstr_of_decode (s := beginCycle s0) hpc heven hdecode
  exact (step_of_next_cycle hnext).trans (cycle_exec hhalted hwait hfetch)

theorem fetchInstr_outOfRange {s : State} (hpc : 0xFFE < s.pc.toNat) : fetchInstr s = .error .fetchOutOfRange := by
  simp [fetchInstr, fetch_outOfRange hpc]

theorem fetchInstr_misaligned {s : State} (hpc : s.pc.toNat ≤ 0xFFE) (hodd : s.pc.toNat % 2 = 1) :
    fetchInstr s = .error .misalignedFetch := by
  simp [fetchInstr, fetch_misaligned hpc hodd]

/-- Settles O9: the fetch checks the bound first and the alignment second, and the cycle takes the fault it finds. -/
theorem fetchFaultsInOrder : Obligations.FetchFaultsInOrder := by
  intro s s0 hnext hrun
  refine ⟨fun hpc => ?bound, fun hpc hodd => ?alignment⟩
  case bound => exact step_fault hnext hrun (fetchInstr_outOfRange (s := beginCycle s0) hpc)
  case alignment => exact step_fault hnext hrun (fetchInstr_misaligned (s := beginCycle s0) hpc hodd)

end Sys2Proof.Proofs

/-! ## The decoder and the encoder undo each other, and follow the opcode map (30_encoding R84 to R88) -/

namespace Sys2Proof.Proofs

open Sys2Proof Sys2Proof.Machine Sys2Proof.Claims

/-! ### Decoding an encoded instruction -/

/-- The register skips (R84, R8): a word whose nibble `n` is well formed decodes to the skip. -/
theorem decodeRegSkip_wordXYN {strict : Bool} {n : Nibble} (hn : (!strict || n == 0#4) = true) (op : BitVec 4)
    (x y : Reg) (mk : Reg → Reg → Nibble → Instr) : decodeRegSkip strict (wordXYN op x y n) mk = .ok (mk x y n) := by
  cases strict with
  | false => simp [decodeRegSkip]
  | true => simp [decodeRegSkip, show n = 0#4 by simpa using hn]

theorem decode_encode {strict : Bool} {i : Instr} (hwf : i.wf strict = true) : decode strict (encode i) = .ok i := by
  cases i
  case cls | ret => rfl
  case jp | call | ldI | jpV0 => simp [encode, decode]
  case seImm | sneImm | ldImm | addImm | rnd => simp [encode, decode]
  case drw => simp [encode, decode]
  case seReg x y n => simpa [encode, decode] using decodeRegSkip_wordXYN hwf 0x5#4 x y .seReg
  case sneReg x y n => simpa [encode, decode] using decodeRegSkip_wordXYN hwf 0x9#4 x y .sneReg
  case ldReg | orReg | andReg | xorReg | addReg | subReg | shr | subnReg | shl => simp [encode, decode, decodeFamily8]
  case skp | sknp => simp [encode, decode, decodeFamilyE]
  case ldVxDT | ldVxK | ldDTVx | ldSTVx | addI | ldF | ldB | dump | load => simp [encode, decode, decodeFamilyF]

/-- Settles O3: the dispatch on `op`, then on the family's own field, finds each layout's instruction again. -/
theorem decodeEncodeRoundTrip : Obligations.DecodeEncodeRoundTrip :=
  fun _ _ hwf => decode_encode hwf

/-- What is well formed under STRICT_5_9 = true is so under both values. -/
theorem wf_of_wf_true {i : Instr} (hwf : i.wf true = true) (strict : Bool) : i.wf strict = true := by
  cases strict with
  | true => exact hwf
  | false => cases i <;> rfl

/-- The number of the word of an instruction with no free nibble decodes to it under both values of STRICT_5_9. -/
theorem decodesAs_encode {w : Nat} {i : Instr} (hword : BitVec.ofNat 16 w = encode i) (hwf : i.wf true = true) :
    DecodesAs w i (opId i) :=
  ⟨fun strict => hword ▸ decode_encode (wf_of_wf_true hwf strict), rfl⟩

/-- Settles O2: the number of each pattern is the word the encoder writes from the same fields. -/
theorem patternsDecode : Obligations.PatternsDecode := by
  intro x y n nn nnn
  have hA (op : BitVec 4) := ofNat_numA op nnn
  have hXB (op : BitVec 4) (b : Byte) := ofNat_numXB op x b
  have hXYN (op : BitVec 4) (m : Nibble) := ofNat_numXYN op x y m
  exact ⟨decodesAs_encode rfl rfl, decodesAs_encode rfl rfl, decodesAs_encode (hA 0x1#4) rfl,
    decodesAs_encode (hA 0x2#4) rfl, decodesAs_encode (hXB 0x3#4 nn) rfl, decodesAs_encode (hXB 0x4#4 nn) rfl,
    decodesAs_encode (hXYN 0x5#4 0#4) rfl, decodesAs_encode (hXB 0x6#4 nn) rfl, decodesAs_encode (hXB 0x7#4 nn) rfl,
    decodesAs_encode (hXYN 0x8#4 0x0#4) rfl, decodesAs_encode (hXYN 0x8#4 0x1#4) rfl,
    decodesAs_encode (hXYN 0x8#4 0x2#4) rfl, decodesAs_encode (hXYN 0x8#4 0x3#4) rfl,
    decodesAs_encode (hXYN 0x8#4 0x4#4) rfl, decodesAs_encode (hXYN 0x8#4 0x5#4) rfl,
    decodesAs_encode (hXYN 0x8#4 0x6#4) rfl, decodesAs_encode (hXYN 0x8#4 0x7#4) rfl,
    decodesAs_encode (hXYN 0x8#4 0xE#4) rfl, decodesAs_encode (hXYN 0x9#4 0#4) rfl,
    decodesAs_encode (hA 0xA#4) rfl, decodesAs_encode (hA 0xB#4) rfl, decodesAs_encode (hXB 0xC#4 nn) rfl,
    decodesAs_encode (hXYN 0xD#4 n) rfl, decodesAs_encode (hXB 0xE#4 0x9E#8) rfl,
    decodesAs_encode (hXB 0xE#4 0xA1#8) rfl, decodesAs_encode (hXB 0xF#4 0x07#8) rfl,
    decodesAs_encode (hXB 0xF#4 0x0A#8) rfl, decodesAs_encode (hXB 0xF#4 0x15#8) rfl,
    decodesAs_encode (hXB 0xF#4 0x18#8) rfl, decodesAs_encode (hXB 0xF#4 0x1E#8) rfl,
    decodesAs_encode (hXB 0xF#4 0x29#8) rfl, decodesAs_encode (hXB 0xF#4 0x33#8) rfl,
    decodesAs_encode (hXB 0xF#4 0x55#8) rfl, decodesAs_encode (hXB 0xF#4 0x65#8) rfl,
    hXYN 0x5#4 n ▸ decode_encode (i := .seReg x y n) rfl, hXYN 0x9#4 n ▸ decode_encode (i := .sneReg x y n) rfl⟩

/-- Settles O1: the words are written out, so the decoder runs on each. -/
theorem specWordsDecode : Obligations.SpecWordsDecode := by
  unfold Obligations.SpecWordsDecode
  decide

/-! ### Encoding a decoded instruction -/

section
variable {w : Word} {strict : Bool} {i : Instr}

theorem wordA_of_fieldOp {op : BitVec 4} (hop : fieldOp w = op) : wordA op (fieldNNN w) = w := hop ▸ wordA_fields w

theorem wordXB_of_fieldOp {op : BitVec 4} (hop : fieldOp w = op) : wordXB op (fieldX w) (fieldNN w) = w :=
  hop ▸ wordXB_fields w

theorem wordXYN_of_fieldOp {op : BitVec 4} (hop : fieldOp w = op) :
    wordXYN op (fieldX w) (fieldY w) (fieldN w) = w := hop ▸ wordXYN_fields w

theorem wordXB_of_fields {op : BitVec 4} {nn : Byte} (hop : fieldOp w = op) (hnn : fieldNN w = nn) :
    wordXB op (fieldX w) nn = w := hnn ▸ wordXB_of_fieldOp hop

theorem wordXYN_of_fields {op : BitVec 4} {n : Nibble} (hop : fieldOp w = op) (hn : fieldN w = n) :
    wordXYN op (fieldX w) (fieldY w) n = w := hn ▸ wordXYN_of_fieldOp hop

theorem encode_of_decodeFamily0 (h : decodeFamily0 w = .ok i) : encode i = w ∧ i.wf strict = true := by
  unfold decodeFamily0 at h
  split at h
  next hw => cases h; exact ⟨hw.symm, rfl⟩
  split at h <;> cases h
  next hw => exact ⟨hw.symm, rfl⟩

theorem encode_of_decodeFamily8 (hop : fieldOp w = 0x8#4) (h : decodeFamily8 w = .ok i) :
    encode i = w ∧ i.wf strict = true := by
  unfold decodeFamily8 at h
  split at h <;> cases h
  all_goals next hn => exact ⟨wordXYN_of_fields hop hn, rfl⟩

theorem encode_of_decodeFamilyE (hop : fieldOp w = 0xE#4) (h : decodeFamilyE w = .ok i) :
    encode i = w ∧ i.wf strict = true := by
  unfold decodeFamilyE at h
  split at h <;> cases h
  all_goals next hnn => exact ⟨wordXB_of_fields hop hnn, rfl⟩

theorem encode_of_decodeFamilyF (hop : fieldOp w = 0xF#4) (h : decodeFamilyF w = .ok i) :
    encode i = w ∧ i.wf strict = true := by
  unfold decodeFamilyF at h
  split at h <;> cases h
  all_goals next hnn => exact ⟨wordXB_of_fields hop hnn, rfl⟩

/-- A register skip that decodes has the nibble `n` its well-formedness asks for. -/
theorem decodeRegSkip_ok {mk : Reg → Reg → Nibble → Instr} (h : decodeRegSkip strict w mk = .ok i) :
    (!strict || fieldN w == 0#4) = true ∧ i = mk (fieldX w) (fieldY w) (fieldN w) := by
  unfold decodeRegSkip at h
  split at h <;> cases h
  next hlegal => exact ⟨by cases strict <;> simp_all, rfl⟩

theorem encode_of_decode (h : decode strict w = .ok i) : encode i = w ∧ i.wf strict = true := by
  unfold decode at h
  split at h
  case h_1 => exact encode_of_decodeFamily0 h
  case h_9 hop => exact encode_of_decodeFamily8 hop h
  case h_6 hop => obtain ⟨hn, rfl⟩ := decodeRegSkip_ok h; exact ⟨wordXYN_of_fieldOp hop, hn⟩
  case h_10 hop => obtain ⟨hn, rfl⟩ := decodeRegSkip_ok h; exact ⟨wordXYN_of_fieldOp hop, hn⟩
  case h_15 hop => exact encode_of_decodeFamilyE hop h
  case h_16 =>
    have hop : fieldOp w = 0xF#4 := by simp only [imp_false] at *; bv_omega
    exact encode_of_decodeFamilyF hop h
  case h_2 hop | h_3 hop | h_11 hop | h_12 hop => cases h; exact ⟨wordA_of_fieldOp hop, rfl⟩
  case h_14 hop => cases h; exact ⟨wordXYN_of_fieldOp hop, rfl⟩
  all_goals next hop => cases h; exact ⟨wordXB_of_fieldOp hop, rfl⟩

end

/-- Settles O4: each layout is rebuilt from the fields the dispatch read. -/
theorem decodeDeterminesWord : Obligations.DecodeDeterminesWord :=
  fun _ _ _ hdecode => encode_of_decode hdecode

/-! ### Rows of the opcode map -/

theorem fieldOp_and (v w : Word) : fieldOp (v &&& w) = fieldOp v &&& fieldOp w := BitVec.extractLsb'_and
theorem fieldN_and (v w : Word) : fieldN (v &&& w) = fieldN v &&& fieldN w := BitVec.extractLsb'_and
theorem fieldNN_and (v w : Word) : fieldNN (v &&& w) = fieldNN v &&& fieldNN w := BitVec.extractLsb'_and

section
variable {w m p : Word} (hrow : w &&& m = p)
include hrow

/-- A word that selects a row whose mask takes in all of `op` has the pattern's `op`; the same holds of `n` and `nn`. -/
theorem fieldOp_of_mask (hm : fieldOp m = 0xF#4) : fieldOp w = fieldOp p := by
  rw [← hrow, fieldOp_and, hm, Laws.EncodeSelectsRow.and_ones4]

theorem fieldN_of_mask (hm : fieldN m = 0xF#4) : fieldN w = fieldN p := by
  rw [← hrow, fieldN_and, hm, Laws.EncodeSelectsRow.and_ones4]

theorem fieldNN_of_mask (hm : fieldNN m = 0xFF#8) : fieldNN w = fieldNN p := by
  rw [← hrow, fieldNN_and, hm, Laws.EncodeSelectsRow.and_ones8]

end

/-- The other direction of EncodeSelectsRow: a word that selects the row is the word of a well-formed instruction with
the row's op id. -/
def RowEncodes (strict : Bool) (w : Word) (r : OpcodeRow) : Prop :=
  w &&& r.mask = r.pattern → ∃ i : Instr, i.wf strict = true ∧ encode i = w ∧ opId i = r.id

section
variable {strict : Bool} {w p : Word} {id : Nat}

theorem rowEncodes_whole (i : Instr) (hi : i.wf strict = true ∧ encode i = p ∧ opId i = id) :
    RowEncodes strict w ⟨id, 0xFFFF#16, p⟩ := fun (hrow : w &&& 0xFFFF#16 = p) =>
  have hw : w = p := BitVec.and_allOnes.symm.trans hrow
  ⟨i, hi.1, hi.2.1.trans hw.symm, hi.2.2⟩

theorem rowEncodes_A (mk : Addr12 → Instr)
    (hmk : ∀ a, (mk a).wf strict = true ∧ encode (mk a) = wordA (fieldOp p) a ∧ opId (mk a) = id) :
    RowEncodes strict w ⟨id, 0xF000#16, p⟩ := fun (hrow : w &&& 0xF000#16 = p) =>
  have ⟨hwf, hencode, hid⟩ := hmk (fieldNNN w)
  ⟨_, hwf, hencode.trans (wordA_of_fieldOp (fieldOp_of_mask hrow (by decide))), hid⟩

theorem rowEncodes_XB (mk : Reg → Byte → Instr)
    (hmk : ∀ x nn, (mk x nn).wf strict = true ∧ encode (mk x nn) = wordXB (fieldOp p) x nn ∧ opId (mk x nn) = id) :
    RowEncodes strict w ⟨id, 0xF000#16, p⟩ := fun (hrow : w &&& 0xF000#16 = p) =>
  have ⟨hwf, hencode, hid⟩ := hmk (fieldX w) (fieldNN w)
  ⟨_, hwf, hencode.trans (wordXB_of_fieldOp (fieldOp_of_mask hrow (by decide))), hid⟩

theorem rowEncodes_X (mk : Reg → Instr)
    (hmk : ∀ x, (mk x).wf strict = true ∧ encode (mk x) = wordXB (fieldOp p) x (fieldNN p) ∧ opId (mk x) = id) :
    RowEncodes strict w ⟨id, 0xF0FF#16, p⟩ := fun (hrow : w &&& 0xF0FF#16 = p) =>
  have ⟨hwf, hencode, hid⟩ := hmk (fieldX w)
  have hop := fieldOp_of_mask hrow (by decide)
  ⟨_, hwf, hencode.trans (wordXB_of_fields hop (fieldNN_of_mask hrow (by decide))), hid⟩

theorem rowEncodes_XYN (mk : Reg → Reg → Nibble → Instr)
    (hmk : ∀ x y n,
      (mk x y n).wf strict = true ∧ encode (mk x y n) = wordXYN (fieldOp p) x y n ∧ opId (mk x y n) = id) :
    RowEncodes strict w ⟨id, 0xF000#16, p⟩ := fun (hrow : w &&& 0xF000#16 = p) =>
  have ⟨hwf, hencode, hid⟩ := hmk (fieldX w) (fieldY w) (fieldN w)
  ⟨_, hwf, hencode.trans (wordXYN_of_fieldOp (fieldOp_of_mask hrow (by decide))), hid⟩

theorem rowEncodes_XY (mk : Reg → Reg → Instr)
    (hmk : ∀ x y,
      (mk x y).wf strict = true ∧ encode (mk x y) = wordXYN (fieldOp p) x y (fieldN p) ∧ opId (mk x y) = id) :
    RowEncodes strict w ⟨id, 0xF00F#16, p⟩ := fun (hrow : w &&& 0xF00F#16 = p) =>
  have ⟨hwf, hencode, hid⟩ := hmk (fieldX w) (fieldY w)
  have hop := fieldOp_of_mask hrow (by decide)
  ⟨_, hwf, hencode.trans (wordXYN_of_fields hop (fieldN_of_mask hrow (by decide))), hid⟩

end

/-- A register skip's row (R85): STRICT_5_9 chooses between the two masks of the layout `o x y n`. -/
theorem rowEncodes_regSkip {strict : Bool} {w p : Word} {id : Nat} (mk : Reg → Reg → Nibble → Instr)
    (hwf : ∀ x y n, (mk x y n).wf strict = (!strict || n == 0#4)) (hp : fieldN p = 0#4)
    (hmk : ∀ x y n, encode (mk x y n) = wordXYN (fieldOp p) x y n ∧ opId (mk x y n) = id) :
    RowEncodes strict w ⟨id, regSkipMask strict, p⟩ := by
  cases strict with
  | false => exact rowEncodes_XYN mk fun x y n => ⟨hwf x y n, hmk x y n⟩
  | true => exact rowEncodes_XY (fun x y => mk x y (fieldN p)) fun x y => ⟨by simp [hwf, hp], hmk x y (fieldN p)⟩

theorem rowEncodes (strict : Bool) (w : Word) : ∀ r ∈ opcodeMap strict, RowEncodes strict w r := by
  simp only [opcodeMap, List.cons_append, List.nil_append, List.forall_mem_cons]
  exact ⟨rowEncodes_whole .cls ⟨rfl, rfl, rfl⟩, rowEncodes_whole .ret ⟨rfl, rfl, rfl⟩,
    rowEncodes_A .jp fun _ => ⟨rfl, rfl, rfl⟩, rowEncodes_A .call fun _ => ⟨rfl, rfl, rfl⟩,
    rowEncodes_XB .seImm fun _ _ => ⟨rfl, rfl, rfl⟩, rowEncodes_XB .sneImm fun _ _ => ⟨rfl, rfl, rfl⟩,
    rowEncodes_regSkip .seReg (fun _ _ _ => rfl) rfl fun _ _ _ => ⟨rfl, rfl⟩,
    rowEncodes_XB .ldImm fun _ _ => ⟨rfl, rfl, rfl⟩, rowEncodes_XB .addImm fun _ _ => ⟨rfl, rfl, rfl⟩,
    rowEncodes_XY .ldReg fun _ _ => ⟨rfl, rfl, rfl⟩, rowEncodes_XY .orReg fun _ _ => ⟨rfl, rfl, rfl⟩,
    rowEncodes_XY .andReg fun _ _ => ⟨rfl, rfl, rfl⟩, rowEncodes_XY .xorReg fun _ _ => ⟨rfl, rfl, rfl⟩,
    rowEncodes_XY .addReg fun _ _ => ⟨rfl, rfl, rfl⟩, rowEncodes_XY .subReg fun _ _ => ⟨rfl, rfl, rfl⟩,
    rowEncodes_XY .shr fun _ _ => ⟨rfl, rfl, rfl⟩, rowEncodes_XY .subnReg fun _ _ => ⟨rfl, rfl, rfl⟩,
    rowEncodes_XY .shl fun _ _ => ⟨rfl, rfl, rfl⟩,
    rowEncodes_regSkip .sneReg (fun _ _ _ => rfl) rfl fun _ _ _ => ⟨rfl, rfl⟩,
    rowEncodes_A .ldI fun _ => ⟨rfl, rfl, rfl⟩, rowEncodes_A .jpV0 fun _ => ⟨rfl, rfl, rfl⟩,
    rowEncodes_XB .rnd fun _ _ => ⟨rfl, rfl, rfl⟩, rowEncodes_XYN .drw fun _ _ _ => ⟨rfl, rfl, rfl⟩,
    rowEncodes_X .skp fun _ => ⟨rfl, rfl, rfl⟩, rowEncodes_X .sknp fun _ => ⟨rfl, rfl, rfl⟩,
    rowEncodes_X .ldVxDT fun _ => ⟨rfl, rfl, rfl⟩, rowEncodes_X .ldVxK fun _ => ⟨rfl, rfl, rfl⟩,
    rowEncodes_X .ldDTVx fun _ => ⟨rfl, rfl, rfl⟩, rowEncodes_X .ldSTVx fun _ => ⟨rfl, rfl, rfl⟩,
    rowEncodes_X .addI fun _ => ⟨rfl, rfl, rfl⟩, rowEncodes_X .ldF fun _ => ⟨rfl, rfl, rfl⟩,
    rowEncodes_X .ldB fun _ => ⟨rfl, rfl, rfl⟩, rowEncodes_X .dump fun _ => ⟨rfl, rfl, rfl⟩,
    rowEncodes_X .load fun _ => ⟨rfl, rfl, rfl⟩, List.forall_mem_nil _⟩

/-- A word that selects a row decodes to an instruction with that row's op id. -/
theorem decode_of_rowMatches {strict : Bool} {w : Word} {r : OpcodeRow} (hr : r ∈ opcodeMap strict)
    (hrow : rowMatches w r = true) : ∃ i, decode strict w = .ok i ∧ opId i = r.id := by
  obtain ⟨i, hwf, rfl, hid⟩ := rowEncodes strict w r hr (eq_of_beq hrow)
  exact ⟨i, decode_encode hwf, hid⟩

/-- The rows of the map are numbered 0 to 33, so a row is determined by its op id. -/
theorem opcodeMap_ids (strict : Bool) : (opcodeMap strict).map OpcodeRow.id = List.range 34 := by cases strict <;> rfl

theorem opcodeRow_eq_of_id_eq {strict : Bool} {r q : OpcodeRow} (hr : r ∈ opcodeMap strict) (hq : q ∈ opcodeMap strict)
    (hid : r.id = q.id) : r = q :=
  List.inj_on_of_nodup_map (opcodeMap_ids strict ▸ List.nodup_range) hr hq hid

/-- Settles O6: both rows carry the op id of the one instruction the word decodes to. -/
theorem opcodeRowsDisjoint : Obligations.OpcodeRowsDisjoint := by
  intro w r q hr hq hrowR hrowQ
  obtain ⟨i, hi, hidR⟩ := decode_of_rowMatches hr hrowR
  obtain ⟨j, hj, hidQ⟩ := decode_of_rowMatches hq hrowQ
  obtain rfl : i = j := Except.ok.inj (hi.symm.trans hj)
  exact opcodeRow_eq_of_id_eq hr hq (hidR.symm.trans hidQ)

open Laws.EncodeSelectsRow in
theorem encodeSelectsRow (i : Instr) : Statement i := by
  cases i
  exacts [cls, ret, jp _, call _, seImm _ _, sneImm _ _, seReg _ _ _, ldImm _ _, addImm _ _, ldReg _ _, orReg _ _,
    andReg _ _, xorReg _ _, addReg _ _, subReg _ _, shr _ _, subnReg _ _, shl _ _, sneReg _ _ _, ldI _, jpV0 _,
    rnd _ _, drw _ _ _, skp _, sknp _, ldVxDT _, ldVxK _, ldDTVx _, ldSTVx _, addI _, ldF _, ldB _, dump _, load _]

/-- The op id the decoder puts out is that of the first row the word selects, or ILLEGAL (R86, R95). -/
theorem decoderOutput_id (strict : Bool) (w : Word) : (decoderOutput strict w).id = opcodeMapId strict w := by
  unfold opcodeMapId
  cases hfind : (opcodeMap strict).find? (rowMatches w) with
  | some r =>
    obtain ⟨i, hi, hid⟩ := decode_of_rowMatches (List.mem_of_find?_eq_some hfind) (List.find?_some hfind)
    simp [decoderOutput, hi, hid]
  | none =>
    cases hdecode : decode strict w with
    | error e => simp [decoderOutput, hdecode]
    | ok i =>
      obtain ⟨rfl, hwf⟩ := encode_of_decode hdecode
      obtain ⟨r, hr, _, hrow⟩ := encodeSelectsRow i strict hwf
      exact absurd hrow (List.find?_eq_none.mp hfind r hr)

theorem opId_ne_illegalId (i : Instr) : opId i ≠ illegalId := by cases i <;> simp [opId, illegalId]

/-- A word whose op id is ILLEGAL decodes to no instruction. -/
theorem decode_error_of_illegalId {strict : Bool} {w : Word} (hid : opcodeMapId strict w = illegalId) :
    ∃ e, decode strict w = .error e := by
  rw [← decoderOutput_id] at hid
  cases hdecode : decode strict w with
  | error e => exact ⟨e, rfl⟩
  | ok i => exact absurd (by simpa [decoderOutput, hdecode] using hid) (opId_ne_illegalId i)

/-- Settles O5: the op id is the first matching row's, the fields are slices, and an ILLEGAL word faults when fetched. -/
theorem decodeFollowsOpcodeMap : Obligations.DecodeFollowsOpcodeMap := by
  refine ⟨fun strict w => ?outputs, fun s s0 w hnext hrun hpc heven hword hid => ?illegal, rfl⟩
  case outputs =>
    exact ⟨decoderOutput_id strict w, fieldX_val w, fieldY_val w, fieldN_toNat w, fieldNN_toNat w, fieldNNN_toNat w⟩
  case illegal =>
    rw [eq_fetchWord_of_wordAtPc hword] at hid
    obtain ⟨e, hdecode⟩ := decode_error_of_illegalId hid
    exact step_fault hnext hrun (fetchInstr_of_illegal (s := beginCycle s0) hpc heven hdecode)

/-! ### The illegal words -/

section
variable {w : Word}

theorem fieldN_eq_iff (n : Nibble) : fieldN w = n ↔ w.toNat % 16 = n.toNat := by
  rw [← BitVec.toNat_inj, fieldN_toNat]

theorem fieldNN_eq_iff (nn : Byte) : fieldNN w = nn ↔ w.toNat % 0x100 = nn.toNat := by
  rw [← BitVec.toNat_inj, fieldNN_toNat]

theorem decodeFamily0_illegal_iff :
    decodeFamily0 w = .error (.illegal w) ↔ w.toNat ≠ 0x00E0 ∧ w.toNat ≠ 0x00EE := by
  have hword (v : Word) : w = v ↔ w.toNat = v.toNat := BitVec.toNat_inj.symm
  unfold decodeFamily0
  split
  next h => simp [h]
  split
  next h => simp [h]
  next h1 h2 => exact iff_of_true rfl ⟨fun h => h1 ((hword _).mpr h), fun h => h2 ((hword _).mpr h)⟩

theorem decodeRegSkip_illegal_iff {strict : Bool} {mk : Reg → Reg → Nibble → Instr} :
    decodeRegSkip strict w mk = .error (.illegal w) ↔ strict = true ∧ w.toNat % 16 ≠ 0 := by
  unfold decodeRegSkip
  split
  next h => simpa [fieldN_eq_iff] using h
  next h => simpa [fieldN_eq_iff] using h

theorem decodeFamily8_illegal_iff :
    decodeFamily8 w = .error (.illegal w) ↔ w.toNat % 16 ∈ [0x8, 0x9, 0xA, 0xB, 0xC, 0xD, 0xF] := by
  unfold decodeFamily8
  split
  case h_10 => simp [fieldN_eq_iff] at *; omega
  all_goals next hn => rw [fieldN_eq_iff] at hn; simp [hn]

theorem decodeFamilyE_illegal_iff :
    decodeFamilyE w = .error (.illegal w) ↔ w.toNat % 0x100 ∉ [0x9E, 0xA1] := by
  unfold decodeFamilyE
  split
  case h_3 => simp only [imp_false, fieldNN_eq_iff] at *; simp_all
  all_goals next hnn => rw [fieldNN_eq_iff] at hnn; simp [hnn]

theorem decodeFamilyF_illegal_iff :
    decodeFamilyF w = .error (.illegal w) ↔
      w.toNat % 0x100 ∉ [0x07, 0x0A, 0x15, 0x18, 0x1E, 0x29, 0x33, 0x55, 0x65] := by
  unfold decodeFamilyF
  split
  case h_10 => simp only [imp_false, fieldNN_eq_iff] at *; simp_all
  all_goals next hnn => rw [fieldNN_eq_iff] at hnn; simp [hnn]

end

/-- Settles O7: the dispatch on `op`, then in each family with illegal words the list of the words it leaves out. -/
theorem illegalWordsAreTheListedOnes : Obligations.IllegalWordsAreTheListedOnes := by
  intro strict w
  rw [← fieldOp_toNat]
  unfold decode
  split
  case h_1 hop => simp [hop, decodeFamily0_illegal_iff]
  case h_6 hop => simp [hop, decodeRegSkip_illegal_iff]
  case h_9 hop => simp [hop, decodeFamily8_illegal_iff]
  case h_10 hop => simp [hop, decodeRegSkip_illegal_iff]
  case h_15 hop => simp [hop, decodeFamilyE_illegal_iff]
  case h_16 =>
    have hop : fieldOp w = 0xF#4 := by simp only [imp_false] at *; bv_omega
    simp [hop, decodeFamilyF_illegal_iff]
  all_goals next hop => simp [hop]

end Sys2Proof.Proofs

/-! ## ALU instructions that set the flag (42_alu R147 to R151; 10_state R33) -/

namespace Sys2Proof.Proofs

open Sys2Proof Sys2Proof.Machine Sys2Proof.Claims

theorem writeResultFlag_advance_sameRegsButFlag (x : Reg) (q : Byte × Bool) (s : State) :
    SameRegsButFlag x s (writeResultFlag x q (advance s)) := fun r hx hflag => by
  simp [readV_writeResultFlag, hx, hflag]

theorem writeResultFlag_advance_sameBytes (x : Reg) (q : Byte × Bool) (s : State) :
    SameBytes s (writeResultFlag x q (advance s)) := readByte_writeResultFlag x q (advance s)

theorem writeResultFlag_advance_sameRest (x : Reg) (q : Byte × Bool) (s : State) :
    SameRest s (writeResultFlag x q (advance s)) := by
  simp [SameRest, SameStack, SameTimers, SameWait, SameStatus, SameOutside]

/-- An instruction that writes a result to `x`, then the flag to VF, and advances: the flag wins when `x` is VF, `pc`
moves by 2, and nothing else changes. -/
theorem exec_writeResultFlag_spec {i : Instr} {s : State} {x : Reg} {q : Byte × Bool} {result flag : Nat}
    (hexec : exec i s = .next (writeResultFlag x q (advance s))) (hresult : q.1.toNat = result)
    (hflag : (flagByte q.2).toNat = flag) :
    ∃ t, exec i s = .next t ∧ (x ≠ flagReg → (readV t x).toNat = result) ∧ (readV t flagReg).toNat = flag ∧
      t.pc = s.pc + 2 ∧ SameRegsButFlag x s t ∧ SameBytes s t ∧ SameRest s t := by
  refine ⟨_, hexec, fun hx => ?result, ?flag, rfl, writeResultFlag_advance_sameRegsButFlag x q s,
    writeResultFlag_advance_sameBytes x q s, writeResultFlag_advance_sameRest x q s⟩
  case result => simp [readV_writeResultFlag, hx, hresult]
  case flag => simp [readV_writeResultFlag, hflag]

/-- A flag's byte is the number of its bit. -/
theorem flagByte_decide_toNat (P : Prop) [Decidable P] : (flagByte (decide P)).toNat = if P then 1 else 0 := by
  by_cases hP : P <;> simp [flagByte, hP]

theorem exec_addReg (x y : Reg) (s : State) :
    exec (.addReg x y) s = .next (writeResultFlag x (aluAdd (readV s x) (readV s y)) (advance s)) := rfl

theorem exec_subReg (x y : Reg) (s : State) :
    exec (.subReg x y) s = .next (writeResultFlag x (aluSub (readV s x) (readV s y)) (advance s)) := rfl

theorem exec_subnReg (x y : Reg) (s : State) :
    exec (.subnReg x y) s = .next (writeResultFlag x (aluSub (readV s y) (readV s x)) (advance s)) := rfl

theorem exec_shr (x y : Reg) (s : State) :
    exec (.shr x y) s = .next (writeResultFlag x (aluShr (readV s x)) (advance s)) := rfl

theorem exec_shl (x y : Reg) (s : State) :
    exec (.shl x y) s = .next (writeResultFlag x (aluShl (readV s x)) (advance s)) := rfl

/-- Settles O27: the sum mod 256 and its carry, written as result and flag. -/
theorem addRegistersWithCarry : Obligations.AddRegistersWithCarry := fun x y s =>
  exec_writeResultFlag_spec (exec_addReg x y s) (aluAdd_result _ _) (flagByte_decide_toNat _)

/-- Settles O28: both are one subtraction, with its operands in the two orders. -/
theorem subtractWithNoBorrowFlag : Obligations.SubtractWithNoBorrowFlag := fun x y s =>
  ⟨exec_writeResultFlag_spec (exec_subReg x y s) (aluSub_result _ _) (flagByte_decide_toNat _),
    exec_writeResultFlag_spec (exec_subnReg x y s) (aluSub_result _ _) (flagByte_decide_toNat _)⟩

theorem aluShr_flagByte (a : Byte) : (flagByte (aluShr a).2).toNat = a.toNat % 2 := by
  rw [aluShr_flag, flagByte_decide_toNat]
  split <;> omega

theorem aluShl_flagByte (a : Byte) : (flagByte (aluShl a).2).toNat = a.toNat / 128 := by
  have := a.isLt
  rw [aluShl_flag, flagByte_decide_toNat]
  split <;> omega

/-- Settles O29: the shifted byte and the bit shifted out, written as result and flag. -/
theorem shiftsByOne : Obligations.ShiftsByOne := fun x y s =>
  ⟨exec_writeResultFlag_spec (exec_shr x y s) (aluShr_result _) (aluShr_flagByte _),
    exec_writeResultFlag_spec (exec_shl x y s) (aluShl_result _) (aluShl_flagByte _)⟩

end Sys2Proof.Proofs

/-! ## Memory transfers through the index register (43_index_memory R183 to R185; 20_memory R62, R63) -/

namespace Sys2Proof.Proofs

open Sys2Proof Sys2Proof.Machine Sys2Proof.Claims

/-! ### What storing a block and advancing changes and what it leaves -/

section
variable {s : State} {a : Nat} {bs : List Byte}

theorem storeBlock_advance_sameRest : SameRest s (storeBlock a bs (advance s)) := by
  simp [SameRest, SameStack, SameTimers, SameWait, SameStatus, SameOutside]

theorem readByte_storeBlock_advance (hcanon : MemCanonical s) (hfit : a + bs.length ≤ 0x1000) (b : Nat) :
    readByte (storeBlock a bs (advance s)) b =
      if h : a ≤ b ∧ b - a < bs.length then bs[b - a]'h.2 else readByte s b :=
  readByte_storeBlock (s := advance s) hcanon hfit b

theorem readByte_storeBlock_inside (hcanon : MemCanonical s) (hfit : a + bs.length ≤ 0x1000) {k : Nat}
    (hk : k < bs.length) : readByte (storeBlock a bs (advance s)) (a + k) = bs[k] := by
  simp [readByte_storeBlock_advance hcanon hfit, hk]

theorem storeBlock_advance_sameBytesBut (hcanon : MemCanonical s) (hfit : a + bs.length ≤ 0x1000) :
    SameBytesBut a bs.length s (storeBlock a bs (advance s)) := fun b hb => by
  rw [readByte_storeBlock_advance hcanon hfit, dif_neg (by omega)]

/-- An instruction that stores a block inside memory and advances puts each byte of the block in its place, moves `pc`
by 2, and touches no other byte, no register and nothing else. -/
theorem exec_storeBlock_spec {i : Instr} (hcanon : MemCanonical s) (hfit : a + bs.length ≤ 0x1000)
    (hexec : exec i s = .next (storeBlock a bs (advance s))) :
    ∃ t, exec i s = .next t ∧ (∀ k (hk : k < bs.length), readByte t (a + k) = bs[k]) ∧
      SameBytesBut a bs.length s t ∧ t.pc = s.pc + 2 ∧ SameRegs s t ∧ SameRest s t :=
  ⟨_, hexec, fun _ hk => readByte_storeBlock_inside hcanon hfit hk, storeBlock_advance_sameBytesBut hcanon hfit, rfl,
    fun _ => rfl, storeBlock_advance_sameRest⟩

end

/-! ### The three instructions, by the addresses they touch -/

section
variable {x : Reg} {s : State}

theorem exec_ldB_ok (hlow : 0x200 ≤ s.I.toNat) (hhigh : s.I.toNat + 2 ≤ 0xFFF) :
    exec (.ldB x) s = .next (storeBlock s.I.toNat (bcdDigits (readV s x)) (advance s)) := by
  rcases exec_ldB_cases x s with ⟨_, _, hexec⟩ | ⟨_, _⟩ | ⟨_, _⟩
  · exact hexec
  all_goals omega

theorem exec_ldB_reserved (hlow : s.I.toNat < 0x200) : exec (.ldB x) s = .next (faulted .reservedWrite s) := by
  rcases exec_ldB_cases x s with ⟨_, _, _⟩ | ⟨_, hexec⟩ | ⟨_, _⟩
  · omega
  · exact hexec
  · omega

theorem exec_ldB_outOfRange (hhigh : 0xFFF < s.I.toNat + 2) : exec (.ldB x) s = .next (faulted .dataOutOfRange s) := by
  rcases exec_ldB_cases x s with ⟨_, _, _⟩ | ⟨_, _⟩ | ⟨_, hexec⟩
  · omega
  · omega
  · exact hexec

theorem exec_dump_ok (hlow : 0x200 ≤ s.I.toNat) (hhigh : s.I.toNat + x.val ≤ 0xFFF) :
    exec (.dump x) s = .next (storeBlock s.I.toNat (regBlock s x) (advance s)) := by
  rcases exec_dump_cases x s with ⟨_, _, hexec⟩ | ⟨_, _⟩ | ⟨_, _⟩
  · exact hexec
  all_goals omega

theorem exec_dump_reserved (hlow : s.I.toNat < 0x200) : exec (.dump x) s = .next (faulted .reservedWrite s) := by
  have := x.isLt
  rcases exec_dump_cases x s with ⟨_, _, _⟩ | ⟨_, hexec⟩ | ⟨_, _⟩
  · omega
  · exact hexec
  · omega

theorem exec_dump_outOfRange (hhigh : 0xFFF < s.I.toNat + x.val) :
    exec (.dump x) s = .next (faulted .dataOutOfRange s) := by
  have := x.isLt
  rcases exec_dump_cases x s with ⟨_, _, _⟩ | ⟨_, _⟩ | ⟨_, hexec⟩
  · omega
  · omega
  · exact hexec

theorem exec_load_ok (hhigh : s.I.toNat + x.val ≤ 0xFFF) : exec (.load x) s =
    .next (loadBlock ((List.range' s.I.toNat (x.val + 1)).map (readByte s)) (advance s)) := by
  rcases exec_load_cases x s with ⟨_, hexec⟩ | ⟨_, _⟩
  · exact hexec
  · omega

theorem exec_load_outOfRange (hhigh : 0xFFF < s.I.toNat + x.val) :
    exec (.load x) s = .next (faulted .dataOutOfRange s) := by
  rcases exec_load_cases x s with ⟨_, _⟩ | ⟨_, hexec⟩
  · omega
  · exact hexec

theorem exec_drw_outOfRange {y : Reg} {n : Nibble} (hn : n ≠ 0#4) (hhigh : 0x1000 < s.I.toNat + n.toNat) :
    exec (.drw x y n) s = .next (faulted .dataOutOfRange s) := by
  rcases exec_drw_cases x y n s with ⟨hok, _⟩ | ⟨_, _, hexec⟩
  · have hn' : n.toNat ≠ 0 := fun h => hn (BitVec.eq_of_toNat_eq h)
    omega
  · exact hexec

end

/-! ### The statements -/

/-- Settles O37: each faulting instruction is decided by its addresses, the reserved range before the upper bound. -/
theorem dataFaultsArePrecise : Obligations.DataFaultsArePrecise := fun _ _ _ _ =>
  ⟨fun hlow => ⟨exec_ldB_reserved hlow, exec_dump_reserved hlow⟩, exec_ldB_outOfRange,
    fun hhigh => ⟨exec_dump_outOfRange hhigh, exec_load_outOfRange hhigh⟩, exec_drw_outOfRange⟩

/-- Settles O34: the instruction stores the block of the three digits, each of them below 256. -/
theorem bcdStoresDigits : Obligations.BcdStoresDigits := by
  intro x s hcanon hlow hhigh
  obtain ⟨t, hexec, hbytes, hframe⟩ := exec_storeBlock_spec hcanon (by simp; omega) (exec_ldB_ok (x := x) hlow hhigh)
  have hdigit {k d : Nat} (hk : k < 3) (hd : d < 2 ^ 8) (hdk : (bcdDigits (readV s x))[k] = BitVec.ofNat 8 d) :
      (readByte t (s.I.toNat + k)).toNat = d := by
    rw [hbytes k hk, hdk, BitVec.toNat_ofNat, Nat.mod_eq_of_lt hd]
  have := (readV s x).isLt
  exact ⟨t, hexec, hdigit (k := 0) (by omega) (by omega) rfl, hdigit (k := 1) (by omega) (by omega) rfl,
    hdigit (k := 2) (by omega) (by omega) rfl, hframe⟩

/-- A register dump inside 0x200..0xFFF (R184): Vk stands at `I + k`, and nothing else of the core changes but `pc`. -/
theorem exec_dump_spec {x : Reg} {s : State} (hcanon : MemCanonical s) (hlow : 0x200 ≤ s.I.toNat)
    (hhigh : s.I.toNat + x.val ≤ 0xFFF) :
    ∃ t, exec (.dump x) s = .next t ∧ (∀ k : Reg, k ≤ x → readByte t (s.I.toNat + k.val) = readV s k) ∧
      SameBytesBut s.I.toNat (x.val + 1) s t ∧ t.pc = s.pc + 2 ∧ SameRegs s t ∧ SameRest s t := by
  have hlength := regBlock_length s x
  obtain ⟨t, hexec, hbytes, hbut, hframe⟩ :=
    exec_storeBlock_spec hcanon (by omega) (exec_dump_ok (x := x) hlow hhigh)
  have hstored (k : Reg) (hk : k ≤ x) : readByte t (s.I.toNat + k.val) = readV s k := by
    have hk' : k.val < (regBlock s x).length := by have : k.val ≤ x.val := hk; omega
    rw [hbytes k.val hk', regBlock_getElem]
  exact ⟨t, hexec, hstored, hlength ▸ hbut, hframe⟩

/-- Settles O35: inside 0x200..0xFFF the dump stores the whole register block. -/
theorem dumpStoresRegisters : Obligations.DumpStoresRegisters := fun _ _ => exec_dump_spec

theorem loadBlock_advance_sameRest (bs : List Byte) (s : State) : SameRest s (loadBlock bs (advance s)) := by
  simp [SameRest, SameStack, SameTimers, SameWait, SameStatus, SameOutside]

/-- Settles O36: the block read from memory goes to the registers its length reaches. -/
theorem loadReadsRegisters : Obligations.LoadReadsRegisters := by
  intro x s hhigh
  refine ⟨_, exec_load_ok hhigh, fun k hk => ?loaded, fun k hk => ?above, fun _ => rfl, rfl,
    loadBlock_advance_sameRest _ s⟩
  case loaded =>
    have hk' : k.val < x.val + 1 := Nat.lt_succ_of_le hk
    simp [readV_loadBlock, hk']
  case above =>
    have hk' : ¬ k.val < x.val + 1 := by have : x.val < k.val := hk; omega
    simp [readV_loadBlock, hk']

/-- Settles O38: the load reads the bytes the dump stored, from the same `I`. -/
theorem dumpLoadRoundTrip : Obligations.DumpLoadRoundTrip := by
  intro x s regs at' hcanon hlow hhigh
  obtain ⟨t, hdump, hstored, _, _, _, hI, _⟩ := exec_dump_spec hcanon hlow hhigh
  have hhigh' : t.I.toNat + x.val ≤ 0xFFF := hI ▸ hhigh
  obtain ⟨u, hload, hloaded, _, _, _, hI', _⟩ := loadReadsRegisters x { t with V := regs, pc := at' } hhigh'
  refine ⟨t, u, hdump, hload, hI'.trans hI, fun k hk => ?back⟩
  case back => calc
    readV u k = readByte t (t.I.toNat + k.val) := hloaded k hk
    _ = readByte t (s.I.toNat + k.val) := by rw [hI]
    _ = readV s k := hstored k hk

/-- Settles O39: the fetch at the address of a stored register reads that register and the next one. -/
theorem fetchSeesStoredBytes : Obligations.FetchSeesStoredBytes := by
  intro x k l s hcanon hlow hhigh hnext hl heven
  have hlx : l.val ≤ x.val := hl
  have hkx : k ≤ x := by show k.val ≤ x.val; omega
  obtain ⟨t, hdump, hstored, _⟩ := exec_dump_spec hcanon hlow hhigh
  have hpc : (BitVec.ofNat 16 (s.I.toNat + k.val)).toNat = s.I.toNat + k.val := by
    rw [BitVec.toNat_ofNat]; omega
  have hfetch := fetch_ok (s := { t with pc := BitVec.ofNat 16 (s.I.toNat + k.val) })
    (hpc.trans_le (by omega)) ((congrArg (· % 2) hpc).trans heven)
  have hhighByte : readByte t (s.I.toNat + k.val) = readV s k := hstored k hkx
  have hlowByte : readByte t (s.I.toNat + k.val + 1) = readV s l := by
    rw [← hstored l hl, hnext, Nat.add_assoc]
  refine ⟨t, _, hdump, hfetch, ?number⟩
  case number => calc
    _ = 0x100 * (readByte t (s.I.toNat + k.val)).toNat + (readByte t (s.I.toNat + k.val + 1)).toNat := by
      rw [fetchWord_toNat, hpc]; rfl
    _ = _ := by rw [hhighByte, hlowByte]

end Sys2Proof.Proofs

/-! ## Drawing a sprite (44_display R201, R202) -/

namespace Sys2Proof.Proofs

open Sys2Proof Sys2Proof.Machine Sys2Proof.Claims

/-- The state a draw leaves when every sprite byte is in memory (R201). -/
def spriteDrawn (x y : Reg) (n : Nibble) (s : State) : State :=
  showDrawn (drawSprite (readV s x).toNat (readV s y).toNat ((List.range' s.I.toNat n.toNat).map (readByte s)) s.disp)
    (advance s)

section
variable (x y : Reg) {n : Nibble} {s : State}

theorem exec_drw_ok (hsprite : n = 0#4 ∨ s.I.toNat + n.toNat ≤ 0x1000) :
    exec (.drw x y n) s = .next (spriteDrawn x y n s) := by
  rcases exec_drw_cases x y n s with ⟨_, hexec⟩ | ⟨hn, hhigh, _⟩
  · exact hexec
  · rcases hsprite with rfl | hok
    · exact absurd rfl hn
    · omega

/-- The bit of the rows read from `I` upwards over a pixel is the sprite's bit over it. -/
theorem rowsBit_sprite (vx vy : Nat) (s : State) (n r : Nat) {c : Nat} (hc : c < 64) :
    rowsBit vx vy ((List.range' s.I.toNat n).map (readByte s)) r c = spriteBit s vx vy n r c := by
  unfold rowsBit spriteBit
  split
  next h =>
    have hr : r < vy + n := by have := h.2; simp at this; omega
    rw [spriteMask_getLsbD]
    simp [hc, h.1, hr]
  next h =>
    have hr : ¬ (vy ≤ r ∧ r < vy + n ∧ vx ≤ c ∧ c < vx + 8) := by simp at h; omega
    simp [hr]

theorem pixel_spriteDrawn {r c : Nat} (hr : r < 32) (hc : c < 64) :
    pixel (spriteDrawn x y n s).disp r c =
      (pixel s.disp r c ^^ spriteBit s (readV s x).toNat (readV s y).toNat n.toNat r c) := by
  simp [spriteDrawn, drawSprite, drawRows_pixel, rowsBit_sprite, hr, hc]

theorem flagByte_eq_one_iff (f : Bool) : flagByte f = 1 ↔ f = true := by cases f <;> simp [flagByte]

/-- The collision flag: some lit pixel of the screen is under a 1 bit of the sprite. -/
theorem drawSprite_hit_iff : (drawSprite (readV s x).toNat (readV s y).toNat
      ((List.range' s.I.toNat n.toNat).map (readByte s)) s.disp).2 = true ↔
    ∃ r c, r < 32 ∧ c < 64 ∧ pixel s.disp r c = true ∧
      spriteBit s (readV s x).toNat (readV s y).toNat n.toNat r c = true := by
  simp only [drawSprite, drawRows_hit, Bool.false_eq_true, false_or]
  refine exists_congr fun r => exists_congr fun c => and_congr_right fun _ => ?column
  case column =>
    by_cases hc : c < 64
    · simp [hc, rowsBit_sprite]
    · simp [hc, pixel_of_col_ge (Nat.le_of_not_lt hc)]

theorem readV_spriteDrawn_flag : readV (spriteDrawn x y n s) flagReg = flagByte (drawSprite (readV s x).toNat
    (readV s y).toNat ((List.range' s.I.toNat n.toNat).map (readByte s)) s.disp).2 := by
  simp [spriteDrawn, showDrawn, readV_writeFlag]

theorem spriteDrawn_flag_eq_one_iff : readV (spriteDrawn x y n s) flagReg = 1 ↔
    ∃ r c, r < 32 ∧ c < 64 ∧ pixel s.disp r c = true ∧
      spriteBit s (readV s x).toNat (readV s y).toNat n.toNat r c = true := by
  rw [readV_spriteDrawn_flag, flagByte_eq_one_iff, drawSprite_hit_iff]

theorem spriteDrawn_flag_ne_one (h : readV (spriteDrawn x y n s) flagReg ≠ 1) :
    readV (spriteDrawn x y n s) flagReg = 0 := by
  rw [readV_spriteDrawn_flag] at h ⊢
  exact (flagByte_eq _).resolve_right h

theorem spriteDrawn_sameRegsBut : SameRegsBut flagReg s (spriteDrawn x y n s) := fun r hr =>
  (readV_writeFlag _ r _).trans (if_neg hr)

theorem spriteDrawn_sameBytes : SameBytes s (spriteDrawn x y n s) := fun _ => rfl

end

/-- Settles O41: each pixel is XORed with the sprite's bit, and the flag is the collision found on the way. -/
theorem drawSpriteXorsPixels : Obligations.DrawSpriteXorsPixels := by
  intro x y n s hsprite
  refine ⟨_, exec_drw_ok x y hsprite, fun r c hr hc => pixel_spriteDrawn x y hr hc, ?collision, ?none, rfl,
    spriteDrawn_sameRegsBut x y, spriteDrawn_sameBytes x y, rfl, ⟨rfl, rfl⟩, ⟨rfl, rfl⟩, ⟨rfl, rfl⟩, ⟨rfl, rfl, rfl⟩,
    rfl, ⟨rfl, rfl, rfl, rfl⟩⟩
  case collision =>
    rintro ⟨r, c, hr, hc, hlit, hoff⟩
    rw [pixel_spriteDrawn x y hr hc, hlit] at hoff
    exact (spriteDrawn_flag_eq_one_iff x y).mpr ⟨r, c, hr, hc, hlit, by simpa using hoff⟩
  case none =>
    intro hkept
    refine spriteDrawn_flag_ne_one x y fun hflag => ?turnedOff
    obtain ⟨r, c, hr, hc, hlit, hbit⟩ := (spriteDrawn_flag_eq_one_iff x y).mp hflag
    have := hkept r c hr hc hlit
    simp [pixel_spriteDrawn x y hr hc, hlit, hbit] at this

/-- A sprite's bits are those of memory at `I`, which a draw leaves alone. -/
theorem spriteBit_spriteDrawn (x y : Reg) (n : Nibble) (s : State) :
    spriteBit (spriteDrawn x y n s) = spriteBit s := rfl

/-- Settles O42: a second XOR with the same bits takes the first one back, and it turns off the pixels the first turned
on. -/
theorem drawTwiceRestores : Obligations.DrawTwiceRestores := by
  intro x y n s hsprite
  have hsecond := exec_drw_ok x y (s := spriteDrawn x y n s) hsprite
  refine ⟨_, _, exec_drw_ok x y hsprite, hsecond, fun hx hy => ⟨?restored, ?flag⟩⟩
  case restored =>
    refine display_ext fun r c hr hc => ?_
    rw [pixel_spriteDrawn x y hr hc, pixel_spriteDrawn x y hr hc, hx, hy, spriteBit_spriteDrawn, Bool.xor_assoc,
      Bool.xor_self, Bool.xor_false]
  case flag =>
    rw [spriteDrawn_flag_eq_one_iff, hx, hy, spriteBit_spriteDrawn]
    refine exists_congr fun r => exists_congr fun c => and_congr_right fun hr => and_congr_right fun hc => ?_
    rw [pixel_spriteDrawn x y hr hc]
    cases pixel s.disp r c <;> simp

/-- Settles O43: after CLS the draw has the blank buffer, the same sprite and the same position, so it draws the same or
takes the same fault. -/
theorem clearThenDrawIsDrawOnBlank : Obligations.ClearThenDrawIsDrawOnBlank := by
  intro x y n s
  by_cases hsprite : n = 0#4 ∨ s.I.toNat + n.toNat ≤ 0x1000
  · have hcleared := exec_drw_ok x y (s := advance { s with disp := blankDisplay }) hsprite
    have hblank := exec_drw_ok x y (s := { s with disp := blankDisplay }) hsprite
    have hflag : readV (spriteDrawn x y n (advance { s with disp := blankDisplay })) flagReg =
        readV (spriteDrawn x y n { s with disp := blankDisplay }) flagReg := by
      rw [readV_spriteDrawn_flag, readV_spriteDrawn_flag]; rfl
    exact ⟨_, _, _, exec_cls s, hcleared, hblank, rfl, hflag, rfl⟩
  · obtain ⟨hn, hhigh⟩ := not_or.mp hsprite
    have hhigh := Nat.lt_of_not_le hhigh
    have hcleared := exec_drw_outOfRange (x := x) (y := y) (s := advance { s with disp := blankDisplay }) hn hhigh
    have hblank := exec_drw_outOfRange (x := x) (y := y) (s := { s with disp := blankDisplay }) hn hhigh
    exact ⟨_, _, _, exec_cls s, hcleared, hblank, rfl, rfl, rfl⟩

end Sys2Proof.Proofs

/-! ## Control flow (41_control_flow R111 to R118) -/

namespace Sys2Proof.Proofs

open Sys2Proof Sys2Proof.Machine Sys2Proof.Claims

/-! ### Skips on two registers -/

/-- Under STRICT_5_9 = true a register skip's word with `n` not 0 is illegal (R84, D4). -/
theorem decodeRegSkip_illegal {n : Nibble} (hn : n ≠ 0#4) (op : BitVec 4) (x y : Reg)
    (mk : Reg → Reg → Nibble → Instr) :
    decodeRegSkip true (wordXYN op x y n) mk = .error (.illegal (wordXYN op x y n)) := by
  simp [decodeRegSkip, hn]

theorem decode_wordXYN_seReg (strict : Bool) (x y : Reg) (n : Nibble) :
    decode strict (wordXYN 0x5#4 x y n) = decodeRegSkip strict (wordXYN 0x5#4 x y n) .seReg := by
  simp [decode]

theorem decode_wordXYN_sneReg (strict : Bool) (x y : Reg) (n : Nibble) :
    decode strict (wordXYN 0x9#4 x y n) = decodeRegSkip strict (wordXYN 0x9#4 x y n) .sneReg := by
  simp [decode]

theorem exec_seReg (x y : Reg) (n : Nibble) (s : State) :
    exec (.seReg x y n) s = .next (skipIf (readV s x == readV s y) s) := rfl

theorem exec_sneReg (x y : Reg) (n : Nibble) (s : State) :
    exec (.sneReg x y n) s = .next (skipIf (readV s x != readV s y) s) := rfl

/-- Settles O18: each instruction is the shared skip on its test, and STRICT_5_9 decides the words with `n` not 0. -/
theorem registerSkips : Obligations.RegisterSkips := by
  intro x y n s
  have hse := ofNat_numXYN 0x5#4 x y n
  have hsne := ofNat_numXYN 0x9#4 x y n
  refine ⟨exec_skip_spec (exec_seReg x y n s) beq_iff_eq, exec_skip_spec (exec_sneReg x y n s) bne_iff_ne,
    fun hn => ⟨?strictSe, ?strictSne⟩, ?looseSe, ?looseSne⟩
  case strictSe => exact hse ▸ (decode_wordXYN_seReg true x y n).trans (decodeRegSkip_illegal hn _ x y _)
  case strictSne => exact hsne ▸ (decode_wordXYN_sneReg true x y n).trans (decodeRegSkip_illegal hn _ x y _)
  case looseSe => exact hse ▸ decode_encode (i := .seReg x y n) rfl
  case looseSne => exact hsne ▸ decode_encode (i := .sneReg x y n) rfl

/-! ### Jumps -/

theorem setPc_sameRegs (a : Word) (s : State) : SameRegs s (setPc a s) := readV_setPc a s

theorem setPc_sameBytes (a : Word) (s : State) : SameBytes s (setPc a s) := readByte_setPc a s

theorem setPc_sameRest (a : Word) (s : State) : SameRest s (setPc a s) := by
  simp [SameRest, SameStack, SameTimers, SameWait, SameStatus, SameOutside]

theorem exec_jp (nnn : Addr12) (s : State) : exec (.jp nnn) s = .next (setPc (zext12 nnn) s) := rfl

theorem exec_jpV0 (nnn : Addr12) (s : State) :
    exec (.jpV0 nnn) s = .next (setPc (zext12 nnn + zext8 (readV s 0)) s) := rfl

/-- The sum of a 12-bit base and a byte fits in `pc` (R118, D27). -/
theorem zext12_add_zext8_toNat (a : Addr12) (b : Byte) : (zext12 a + zext8 b).toNat = a.toNat + b.toNat := by
  have := a.isLt
  have := b.isLt
  rw [BitVec.toNat_add, zext12_toNat, zext8_toNat]
  omega

/-- Settles O19: the jump writes `pc` alone, and the next fetch checks the target. -/
theorem jumpSetsPc : Obligations.JumpSetsPc := by
  intro nnn s
  have hpc : (setPc (zext12 nnn) s).pc.toNat = nnn.toNat := zext12_toNat nnn
  refine ⟨decodesAs_encode (ofNat_numA 0x1#4 nnn) rfl, _, exec_jp nnn s, hpc, setPc_sameRegs _ s, setPc_sameBytes _ s,
    setPc_sameRest _ s, fun u hnext hrun => ?nextFetch⟩
  case nextFetch =>
    obtain ⟨hbound, halign⟩ := fetchFaultsInOrder u _ hnext hrun
    rw [hpc] at hbound halign
    exact ⟨fun htop => hbound (by omega), fun hodd htop => halign (by have := nnn.isLt; omega) hodd⟩

/-- Settles O20: the jump writes `pc` alone, and the next fetch checks the sum. -/
theorem jumpWithOffsetAddsV0 : Obligations.JumpWithOffsetAddsV0 := by
  intro nnn s
  exact ⟨decodesAs_encode (ofNat_numA 0xB#4 nnn) rfl, _, exec_jpV0 nnn s, zext12_add_zext8_toNat nnn _,
    setPc_sameRegs _ s, setPc_sameBytes _ s, setPc_sameRest _ s, fun u hnext hrun => fetchFaultsInOrder u _ hnext hrun⟩

/-! ### Calls and returns -/

theorem exec_call_ok (nnn : Addr12) {s : State} (hfree : s.sp.val < 16) :
    exec (.call nnn) s = .next (called nnn s hfree) := by
  rcases exec_call_cases nnn s with ⟨_, hexec⟩ | ⟨hfull, _⟩
  · exact hexec
  · omega

theorem exec_call_overflow (nnn : Addr12) {s : State} (hfull : s.sp.val = 16) :
    exec (.call nnn) s = .next (faulted .stackOverflow s) := by
  rcases exec_call_cases nnn s with ⟨hfree, _⟩ | ⟨_, hexec⟩
  · omega
  · exact hexec

theorem exec_ret_ok {s : State} (hopen : s.sp.val ≠ 0) : exec .ret s = .next (returned s hopen) := by
  rcases exec_ret_cases s with ⟨_, hexec⟩ | ⟨hempty, _⟩
  · exact hexec
  · exact absurd hempty hopen

theorem exec_ret_underflow {s : State} (hempty : s.sp.val = 0) : exec .ret s = .next (faulted .stackUnderflow s) := by
  rcases exec_ret_cases s with ⟨hopen, _⟩ | ⟨_, hexec⟩
  · exact absurd hempty hopen
  · exact hexec

/-- Settles O21: the call fills the slot at `sp` and jumps, or overflows. -/
theorem callPushesReturnAddress : Obligations.CallPushesReturnAddress := by
  intro nnn s
  refine ⟨fun k hk => ?pushed, exec_call_overflow nnn⟩
  case pushed =>
    have hfree : s.sp.val < 16 := hk ▸ k.isLt
    refine ⟨_, exec_call_ok nnn hfree, ?slot, fun j hj => ?others, rfl, zext12_toNat nnn, fun _ => rfl, fun _ => rfl,
      rfl, ⟨rfl, rfl⟩, rfl, ⟨rfl, rfl⟩, ⟨rfl, rfl, rfl⟩, rfl, ⟨rfl, rfl, rfl, rfl⟩⟩
    case slot => simp [called, hk]
    case others =>
      have hne : s.sp.val ≠ j.val := fun h => hj (Fin.ext (h.symm.trans hk))
      simp [called, hne]

/-- Settles O22: the return reads the slot below `sp` into `pc`, or underflows. -/
theorem returnPopsTheStack : Obligations.ReturnPopsTheStack := by
  intro s
  refine ⟨fun k hk => ?popped, exec_ret_underflow⟩
  case popped =>
    refine ⟨_, exec_ret_ok (by omega), ?slot, by simp [returned, hk], rfl, fun _ => rfl, fun _ => rfl, rfl, ⟨rfl, rfl⟩,
      rfl, ⟨rfl, rfl⟩, ⟨rfl, rfl, rfl⟩, rfl, ⟨rfl, rfl, rfl, rfl⟩⟩
    case slot => simp [returned, hk]

/-- Settles O23: the return finds the address the call pushed in the slot below the `sp` it left. -/
theorem callThenReturnComesBack : Obligations.CallThenReturnComesBack := by
  intro nnn s u hfree
  let slot : Fin 16 := ⟨s.sp.val, hfree⟩
  obtain ⟨t, hcall, hslot, _, hsp, _⟩ := (callPushesReturnAddress nnn s).1 slot rfl
  refine ⟨t, hcall, fun hstack hsp' => ?returns⟩
  case returns =>
    obtain ⟨v, hret, hpc, hspv, _⟩ := (returnPopsTheStack u).1 slot (by rw [hsp', hsp])
    exact ⟨v, hret, hpc.trans (by rw [hstack, hslot]), Fin.ext hspv⟩

end Sys2Proof.Proofs

/-! ## Random bytes, the index sum and the keypad (42_alu R152; 43_index_memory R181; 45_keys_timers R220 to R223) -/

namespace Sys2Proof.Proofs

open Sys2Proof Sys2Proof.Machine Sys2Proof.Claims

theorem exec_rnd (x : Reg) (nn : Byte) (s : State) :
    exec (.rnd x nn) s = .next (writeV x (Config.randomByte s.draws &&& nn) (advance (drawByte s).2)) := rfl

/-- Settles O30: the byte written is the next draw under the mask, and the draw counter moves by one. -/
theorem randomUnderMask : Obligations.RandomUnderMask := by
  intro x nn s
  have hread : readV (writeV x (Config.randomByte s.draws &&& nn) (advance (drawByte s).2)) x =
      Config.randomByte s.draws &&& nn := readV_writeV_same ..
  refine ⟨_, exec_rnd x nn s, fun b => ?bits, fun hzero => ?zero, rfl, rfl, fun r hr => readV_writeV_ne hr _ _,
    fun _ => rfl, rfl, ⟨rfl, rfl⟩, ⟨rfl, rfl⟩, rfl, ⟨rfl, rfl⟩, ⟨rfl, rfl, rfl⟩, ⟨rfl, rfl, rfl, rfl⟩⟩
  case bits => rw [hread, BitVec.getLsbD_and]
  case zero => rw [hread, hzero]; exact BitVec.and_zero

theorem exec_addI (x : Reg) (s : State) : exec (.addI x) s = .next (setI (s.I + zext8 (readV s x)) (advance s)) := rfl

/-- Settles O32: the instruction loads `I` with a 16-bit sum. -/
theorem addIndexSetsNoFlag : Obligations.AddIndexSetsNoFlag := fun x s =>
  exec_setI_spec (exec_addI x s) (by rw [BitVec.toNat_add, zext8_toNat])

theorem exec_skp_ok {x : Reg} {s : State} (hkey : (readV s x).toNat ≤ 15) :
    exec (.skp x) s = .next (skipIf (keyDown s (readV s x).toNat) s) := by
  rcases exec_skp_cases x s with ⟨_, hexec⟩ | ⟨_, _⟩
  · exact hexec
  · omega

theorem exec_sknp_ok {x : Reg} {s : State} (hkey : (readV s x).toNat ≤ 15) :
    exec (.sknp x) s = .next (skipIf (!keyDown s (readV s x).toNat) s) := by
  rcases exec_sknp_cases x s with ⟨_, hexec⟩ | ⟨_, _⟩
  · exact hexec
  · omega

theorem exec_skp_outOfRange {x : Reg} {s : State} (hkey : 15 < (readV s x).toNat) :
    exec (.skp x) s = .next (faulted .keyIndexOutOfRange s) := by
  rcases exec_skp_cases x s with ⟨_, _⟩ | ⟨_, hexec⟩
  · omega
  · exact hexec

theorem exec_sknp_outOfRange {x : Reg} {s : State} (hkey : 15 < (readV s x).toNat) :
    exec (.sknp x) s = .next (faulted .keyIndexOutOfRange s) := by
  rcases exec_sknp_cases x s with ⟨_, _⟩ | ⟨_, hexec⟩
  · omega
  · exact hexec

/-- Settles O44: with a key number both are the shared skip on that key, and with a larger one both fault. -/
theorem keySkips : Obligations.KeySkips := by
  intro x s
  refine ⟨fun hkey => ⟨?down, ?up⟩, fun hkey => ⟨exec_skp_outOfRange hkey, exec_sknp_outOfRange hkey⟩⟩
  case down => exact exec_skip_spec (exec_skp_ok hkey) Iff.rfl
  case up => exact exec_skip_spec (exec_sknp_ok hkey) (Bool.not_eq_true' _).to_iff

theorem exec_ldVxK (x : Reg) (s : State) :
    exec (.ldVxK x) s = .next (advance { s with wait := some x, keyPrev := s.keys }) := rfl

/-- Settles O46: the instruction writes the wait state and the key sample, and advances. -/
theorem waitForKeyEntersWait : Obligations.WaitForKeyEntersWait := fun x s =>
  ⟨_, exec_ldVxK x s, rfl, rfl, rfl, rfl, fun _ => rfl, fun _ => rfl, rfl, ⟨rfl, rfl⟩, ⟨rfl, rfl⟩, rfl, ⟨rfl, rfl, rfl⟩,
    rfl, ⟨rfl, rfl, rfl, rfl⟩⟩

end Sys2Proof.Proofs

/-! ## The host's operations and what the host reads (70_reset R340, R341; 45_keys_timers R224 to R228; 10_state R46) -/

namespace Sys2Proof.Proofs

open Sys2Proof Sys2Proof.Machine Sys2Proof.Claims

/-- The fault the statements describe is the one the machine raises. -/
theorem raise_eq_faulted (c : FaultCode) (s : State) : raise c s = faulted c s := rfl

/-! ### Keypad and timers -/

/-- Settles O14: the operation is the one field update. -/
theorem setKeysWritesOnlyKeys : Obligations.SetKeysWritesOnlyKeys := fun _ _ _ hnext => step_of_next hnext

theorem countDown_toNat (t : Byte) : (countDown t).toNat = t.toNat - 1 := by
  unfold countDown
  split <;> bv_omega

theorem hostTick_halted {s : State} (hhalted : s.halted = true) : hostTick s = s := by simp [hostTick, hhalted]

theorem hostTick_running {s : State} (hhalted : s.halted = false) :
    hostTick s = { s with DT := countDown s.DT, ST := countDown s.ST } := by simp [hostTick, hhalted]

theorem step_of_next_tick {s s0 : State} (hnext : Next .tick s s0) : step s = .next (hostTick s0) := step_of_next hnext

/-- Settles O13: a tick counts both timers down, and a halted core ignores it. -/
theorem tickCountsTimersDown : Obligations.TickCountsTimersDown := by
  intro s s0 hnext
  rw [step_of_next_tick hnext]
  refine ⟨fun hhalted => congrArg _ (hostTick_halted hhalted), fun hhalted => ?running⟩
  case running =>
    rw [hostTick_running hhalted]
    exact ⟨_, rfl, rfl, countDown_toNat s0.DT, countDown_toNat s0.ST⟩

section
variable {rom : List Byte} {s : State}

theorem hostLoad_refused (hrefused : s.loadOpen = false ∨ s.halted = true) :
    hostLoad rom s = .refused .loadNotAdmitted := by
  rcases hrefused with h | h <;> simp [hostLoad, h]

theorem hostLoad_tooLarge (hopen : s.loadOpen = true) (hhalted : s.halted = false) (hlong : 3584 < rom.length) :
    hostLoad rom s = .next (faulted .romTooLarge { s with loadOpen := false }) := by
  simp [hostLoad, hopen, hhalted, maxRom, hlong, raise_eq_faulted]

theorem hostLoad_stored (hopen : s.loadOpen = true) (hhalted : s.halted = false) (hfits : rom.length ≤ 3584) :
    hostLoad rom s = .next (storeBlock 0x200 rom { s with loadOpen := false }) := by
  simp [hostLoad, hopen, hhalted, maxRom, Nat.not_lt_of_le hfits, storeBlock, loadBase]

end

theorem step_of_next_load {rom : List Byte} {s s0 : State} (hnext : Next (.load rom) s s0) :
    step s = hostLoad rom s0 := step_of_next hnext

/-- Settles O10: each operation of the host, on a halted core. -/
theorem haltedCoreIsFrozen : Obligations.HaltedCoreIsFrozen := by
  intro s s0 hhalted
  refine ⟨fun hnext => ?cycle, fun hnext => ?tick, fun k hnext => step_of_next hnext, fun rom hnext => ?load,
    fun hnext => ?reset⟩
  case cycle => exact (step_of_next_cycle hnext).trans (cycle_halted hhalted)
  case tick => exact (tickCountsTimersDown s s0 hnext).1 hhalted
  case load => exact (step_of_next_load hnext).trans (hostLoad_refused (.inr hhalted))
  case reset => exact ⟨hostReset s0, step_of_next hnext, rfl, rfl, rfl⟩

/-! ### The waiting step -/

theorem newlyPressed_iff (s : State) (k : Nat) :
    newlyPressed s k = true ↔ s.keys.getLsbD k = true ∧ s.keyPrev.getLsbD k = false := by
  simp [newlyPressed]

theorem lowestNewKey_eq_some_iff (s : State) (k : Nat) : lowestNewKey s = some k ↔
    k < 16 ∧ (s.keys.getLsbD k = true ∧ s.keyPrev.getLsbD k = false) ∧
      ∀ j, j < k → ¬ (s.keys.getLsbD j = true ∧ s.keyPrev.getLsbD j = false) := by
  simp only [lowestNewKey_some, ← newlyPressed_iff, Bool.not_eq_true]

theorem lowestNewKey_eq_none_iff (s : State) : lowestNewKey s = none ↔
    ∀ k, k < 16 → ¬ (s.keys.getLsbD k = true ∧ s.keyPrev.getLsbD k = false) := by
  simp only [lowestNewKey_none, ← newlyPressed_iff, Bool.not_eq_true]

theorem waitStep_of_some {x : Reg} {s : State} {k : Nat} (hkey : lowestNewKey s = some k) :
    waitStep x s = writeV x (BitVec.ofNat 8 k) { s with keyPrev := s.keys, wait := none } := by simp [waitStep, hkey]

theorem waitStep_of_none {x : Reg} {s : State} (hkey : lowestNewKey s = none) :
    waitStep x s = { s with keyPrev := s.keys } := by simp [waitStep, hkey]

theorem readV_waitStep_ne (x r : Reg) (s : State) (hr : r ≠ x) : readV (waitStep x s) r = readV s r := by
  rcases waitStep_cases x s with ⟨k, _, e⟩ | ⟨_, e⟩ <;> rw [e]
  · exact readV_writeV_ne hr _ _
  · rfl

/-- Settles O12: the waiting step looks for the lowest newly pressed key, and writes Vx only when there is one. -/
theorem waitingStepTakesLowestNewKey : Obligations.WaitingStepTakesLowestNewKey := by
  intro s s0 x hnext hhalted hwait
  have hstep : step s = .next (waitStep x (beginCycle s0)) :=
    (step_of_next_cycle hnext).trans (cycle_waiting hhalted hwait)
  refine ⟨_, hstep, fun k hk hnew hlowest => ?newKey, fun hnone => ?noKey, ?frame⟩
  case newKey =>
    have hkey := (lowestNewKey_eq_some_iff (beginCycle s0) k).mpr ⟨hk, hnew, hlowest⟩
    rw [waitStep_of_some hkey, readV_writeV_same, BitVec.toNat_ofNat]
    exact ⟨rfl, Nat.mod_eq_of_lt (by omega)⟩
  case noKey =>
    rw [waitStep_of_none ((lowestNewKey_eq_none_iff (beginCycle s0)).mpr hnone)]
    exact ⟨hwait, rfl⟩
  case frame =>
    have hregs : SameRegsBut x s0 (waitStep x (beginCycle s0)) := fun r hr => readV_waitStep_ne x r (beginCycle s0) hr
    obtain ⟨V, w, hshape⟩ := waitStep_shape x (beginCycle s0)
    rw [hshape] at hregs ⊢
    exact ⟨rfl, rfl, hregs, fun _ => rfl, rfl, ⟨rfl, rfl⟩, ⟨rfl, rfl⟩, rfl, ⟨rfl, rfl, rfl⟩, rfl, rfl, rfl, rfl⟩

/-! ### Reset and load -/

/-- Every element of R45 at its reset value, for whatever FONT the state carries. -/
structure AtReset (u : State) : Prop where
  regs : ∀ r, readV u r = 0
  index : u.I = 0
  pc : u.pc = 0x200
  stack : ∀ k : Fin 16, u.stack[k] = 0
  sp : u.sp = 0
  DT : u.DT = 0
  ST : u.ST = 0
  disp : ∀ r c, pixel u.disp r c = false
  keys : u.keys = 0
  keyPrev : u.keyPrev = 0
  wait : u.wait = none
  halted : u.halted = false
  faultCode : u.faultCode = .none
  faultPc : u.faultPc = 0
  bytes : ∀ a, readByte u a = resetByte u.config.font a
  loadOpen : u.loadOpen = true

theorem hostReset_atReset (s : State) : AtReset (hostReset s) where
  regs r := by simp [readV, hostReset, State.reset]
  index := rfl
  pc := rfl
  stack k := by simp [hostReset, State.reset]
  sp := rfl
  DT := rfl
  ST := rfl
  disp := pixel_blank
  keys := rfl
  keyPrev := rfl
  wait := rfl
  halted := rfl
  faultCode := rfl
  faultPc := rfl
  bytes _ := rfl
  loadOpen := rfl

/-- State.reset is what a Reset of it gives. -/
theorem reset_atReset : AtReset State.reset := hostReset_atReset State.reset

theorem AtReset.font {u : State} (hu : AtReset u) (k : Fin 80) : readByte u (0x050 + k.val) = u.config.font[k] :=
  (hu.bytes _).trans (resetByte_font k.val k.isLt)

theorem AtReset.zero {u : State} (hu : AtReset u) {a : Nat} (ha : a < 0x050 ∨ 0x0A0 ≤ a) : readByte u a = 0 :=
  (hu.bytes a).trans (resetByte_zero ha)

/-- Every operation but Reset leaves a halted core halted. -/
theorem perform_keeps_halted {op : HostOp} {s t : State} (hhalted : s.halted = true) (hop : op ≠ .reset)
    (hperform : perform op s = .next t) : t.halted = true := by
  cases op with
  | reset => exact absurd rfl hop
  | load rom => simp [perform, hostLoad, hhalted] at hperform
  | setKeys k => cases hperform; exact hhalted
  | cycle => cases (cycle_halted hhalted).symm.trans hperform; exact hhalted
  | tick => cases hperform; rw [hostTick_halted hhalted]; exact hhalted

/-- Settles O15: Reset builds its state from the reset values, and no other operation leads out of the halt. -/
theorem resetGivesTheResetState : Obligations.ResetGivesTheResetState := by
  refine ⟨fun s t hhalted hstep hrunning => ?onlyReset, fun s s0 hnext => ?resetState⟩
  case onlyReset =>
    rcases nextOp_cases s with ⟨_, hop⟩ | ⟨op, rest, hhost, hop⟩ <;> rw [step_perform hop] at hstep
    · simp [perform_keeps_halted hhalted (by simp) hstep] at hrunning
    · by_cases hreset : op = .reset
      · exact ⟨rest, hreset ▸ hhost⟩
      · simp [perform_keeps_halted (s := { s with host := rest }) hhalted hreset hstep] at hrunning
  case resetState =>
    refine ⟨hostReset s0, step_of_next hnext, fun u hu => ?values, rfl, rfl⟩
    have h : AtReset u := by
      rcases hu with rfl | rfl
      · exact hostReset_atReset s0
      · exact reset_atReset
    exact ⟨h.regs, h.index, h.pc, h.stack, h.sp, h.DT, h.ST, h.disp, h.keys, h.keyPrev, h.wait, h.halted,
      h.faultCode ▸ rfl, h.faultPc, h.font, fun _ => h.zero, h.loadOpen⟩

/-- Settles O16: an accepted ROM is one stored block, a longer one a fault, and any other Load a refusal. -/
theorem loadPlacesProgram : Obligations.LoadPlacesProgram := by
  refine ⟨rfl, fun s s0 rom hnext => ?load⟩
  rw [step_of_next_load hnext]
  refine ⟨fun hopen hhalted hfits hcanon => ?stored, hostLoad_tooLarge, hostLoad_refused⟩
  case stored =>
    have hread := readByte_storeBlock (s := { s0 with loadOpen := false }) (a := 0x200) (bs := rom) hcanon (by omega)
    refine ⟨_, hostLoad_stored hopen hhalted hfits, fun k hk => ?inside, fun b hb => ?outside, rfl⟩
    case inside => simp [hread, hk]
    case outside => exact (hread b).trans (dif_neg (by omega))

/-! ### Through any number of steps -/

/-- One step of a halted core whose host neither resets it nor loads a program writes the keypad at most. -/
theorem step_halted {s : State} (hhalted : s.halted = true) (hhost : NoResetNoLoad s.host) :
    ∃ keys, step s = .next { s with keys := keys, host := s.host.drop 1 } := by
  rcases nextOp_cases s with ⟨hnil, hop⟩ | ⟨op, rest, hcons, hop⟩ <;> rw [step_perform hop]
  · exact ⟨s.keys, (cycle_halted hhalted).trans (by rw [hnil, List.drop_nil, ← hnil])⟩
  · have hdrop : s.host.drop 1 = rest := by rw [hcons]; rfl
    rw [hdrop]
    rcases hhost op (hcons ▸ List.mem_cons_self) with rfl | rfl | ⟨k, rfl⟩
    · exact ⟨s.keys, cycle_halted (s := { s with host := rest }) hhalted⟩
    · exact ⟨s.keys, congrArg _ (hostTick_halted (s := { s with host := rest }) hhalted)⟩
    · exact ⟨k, rfl⟩

theorem NoResetNoLoad.drop {ops : List HostOp} (hops : NoResetNoLoad ops) (k : Nat) : NoResetNoLoad (ops.drop k) :=
  fun op hop => hops op (List.mem_of_mem_drop hop)

theorem run_succ {k : Nat} {s t : State} (hstep : step s = .next t) :
    Host.Core.run Sys2Proof.core (k + 1) s = Host.Core.run Sys2Proof.core k t := by
  have hcore : Sys2Proof.core.step s = .next t := hstep
  simp only [Host.Core.run, hcore]

/-- Settles O11, by induction on the number of steps: each one takes an operation off the host's list and keeps the
rest of the halted state. -/
theorem haltedForeverWithoutReset : Obligations.HaltedForeverWithoutReset := by
  intro k
  induction k with
  | zero => exact fun s _ _ => ⟨s, rfl, rfl⟩
  | succ k ih =>
    intro s hhalted hhost
    obtain ⟨keys, hstep⟩ := step_halted hhalted hhost
    obtain ⟨t, hrun, ht⟩ := ih { s with keys := keys, host := s.host.drop 1 } hhalted (NoResetNoLoad.drop hhost 1)
    have hdrop : (s.host.drop 1).drop k = s.host.drop (k + 1) := by rw [List.drop_drop, Nat.add_comm]
    exact ⟨t, (run_succ hstep).trans hrun, hdrop ▸ ht⟩

/-! ### Outputs -/

/-- Settles O58: each output is a field of the state or a test of one, and a fault sets all three it reports. -/
theorem hostReadsStateAndFaultNumbers : Obligations.HostReadsStateAndFaultNumbers := by
  refine ⟨fun s => ?views, rfl, ?numbers⟩
  case views => exact ⟨fun _ _ => rfl, outputs_soundOn_iff s, outputs_waiting_iff s, rfl, rfl, rfl⟩
  case numbers =>
    have hreads {c : FaultCode} {n : Nat} (hn : faultNumber c = n) (s : State) : (outputs (faulted c s)).halted = true ∧
        (outputs (faulted c s)).faultCode = n ∧ (outputs (faulted c s)).faultPc = s.pc := ⟨rfl, hn, rfl⟩
    simp only [List.forall_mem_cons, List.not_mem_nil, false_implies, implies_true, and_true]
    exact ⟨hreads rfl, hreads rfl, hreads rfl, hreads rfl, hreads rfl, hreads rfl, hreads rfl, hreads rfl, hreads rfl⟩

end Sys2Proof.Proofs

/-! ## What one instruction may do: a listed fault, or the writes listed for it (30_encoding R93; 60_exceptions R301) -/

namespace Sys2Proof.Proofs

open Sys2Proof Sys2Proof.Machine Sys2Proof.Claims

/-- The instruction `i` ran without a fault from `s` to `t`: `pc` is as the mux of R93 allows, and no component of the
state is written but those the rules of `i` name. The defaults say that `t` is `s` in that component by definition, so
that an instruction gives the components it writes alone. -/
structure Ran (i : Instr) (s t : State) : Prop where
  mux : MuxAllows i s t.pc
  regs : ∀ r, mayWrite i r = false → readV t r = readV s r := by exact fun _ _ => rfl
  bytes : (∀ x, i ≠ .ldB x) → (∀ x, i ≠ .dump x) → SameBytes s t := by exact fun _ _ _ => rfl
  index : (∀ a, i ≠ .ldI a) → (∀ x, i ≠ .addI x) → (∀ x, i ≠ .ldF x) → t.I = s.I := by exact fun _ _ _ => rfl
  stack : (∀ a, i ≠ .call a) → i ≠ .ret → SameStack s t := by exact fun _ _ => ⟨rfl, rfl⟩
  disp : i ≠ .cls → (∀ x y n, i ≠ .drw x y n) → t.disp = s.disp := by exact fun _ _ => rfl
  DT : (∀ x, i ≠ .ldDTVx x) → t.DT = s.DT := by exact fun _ => rfl
  ST : (∀ x, i ≠ .ldSTVx x) → t.ST = s.ST := by exact fun _ => rfl
  wait : (∀ x, i ≠ .ldVxK x) → SameWait s t := by exact fun _ => ⟨rfl, rfl⟩
  draws : (∀ x nn, i ≠ .rnd x nn) → t.draws = s.draws := by exact fun _ => rfl
  status : SameStatus s t := by exact ⟨rfl, rfl, rfl⟩
  outside : SameOutside s t := by exact ⟨rfl, rfl, rfl, rfl⟩

/-! ### Instructions that write registers and `pc` alone -/

section
variable {i : Instr} {s : State}

theorem Ran.of_sameRest {t : State} (hmux : MuxAllows i s t.pc)
    (hregs : ∀ r, mayWrite i r = false → readV t r = readV s r) (hbytes : SameBytes s t) (hrest : SameRest s t) :
    Ran i s t := by
  obtain ⟨hI, hstack, ⟨hDT, hST⟩, hdisp, hwait, hstatus, hdraws, houtside⟩ := hrest
  exact ⟨hmux, hregs, fun _ _ => hbytes, fun _ _ _ => hI, fun _ _ => hstack, fun _ _ => hdisp, fun _ => hDT,
    fun _ => hST, fun _ => hwait, fun _ => hdraws, hstatus, houtside⟩

theorem Ran.of_skipIf {c : Bool} (hmux : MuxAllows i s (if c then s.pc + 4 else s.pc + 2)) : Ran i s (skipIf c s) :=
  .of_sameRest (skipIf_pc c s ▸ hmux) (fun r _ => readV_skipIf c s r) (skipIf_sameBytes c s) (skipIf_sameRest c s)

theorem Ran.of_setPc {a : Word} (hmux : MuxAllows i s a) : Ran i s (setPc a s) where
  mux := hmux

theorem Ran.of_writeV {x : Reg} {v : Byte} (hmux : MuxAllows i s (s.pc + 2)) (hmay : mayWrite i x = true) :
    Ran i s (writeV x v (advance s)) where
  mux := hmux
  regs r hr := writeV_advance_sameRegsBut x v s r (by rintro rfl; simp [hmay] at hr)

theorem Ran.of_writeResultFlag {x : Reg} {q : Byte × Bool} (hmux : MuxAllows i s (s.pc + 2))
    (hmay : ∀ r, mayWrite i r = (r == x || r == flagReg)) : Ran i s (writeResultFlag x q (advance s)) where
  mux := hmux
  regs r hr := by
    have hne : r ≠ x ∧ r ≠ flagReg := by simpa [hmay] using hr
    exact writeResultFlag_advance_sameRegsButFlag x q s r hne.1 hne.2

end

/-! ### Instructions that write one more component -/

section
variable (x y : Reg) (n : Nibble) (nn : Byte) (nnn : Addr12) (s : State)

theorem ran_cls : Ran .cls s (advance { s with disp := blankDisplay }) where
  mux := rfl
  disp h := absurd rfl h

theorem ran_ret (hopen : s.sp.val ≠ 0) : Ran .ret s (returned s hopen) where
  mux := ⟨⟨s.sp.val - 1, by omega⟩, Nat.sub_add_cancel (Nat.pos_of_ne_zero hopen), rfl⟩
  stack _ h := absurd rfl h

theorem ran_call (hfree : s.sp.val < 16) : Ran (.call nnn) s (called nnn s hfree) where
  mux := zext12_toNat nnn
  stack h := absurd rfl (h nnn)

theorem ran_ldI : Ran (.ldI nnn) s (setI (zext12 nnn) (advance s)) where
  mux := rfl
  index h := absurd rfl (h nnn)

theorem ran_addI : Ran (.addI x) s (setI (s.I + zext8 (readV s x)) (advance s)) where
  mux := rfl
  index _ h := absurd rfl (h x)

theorem ran_ldF : Ran (.ldF x) s (setI (glyphAddr (readV s x)) (advance s)) where
  mux := rfl
  index _ _ h := absurd rfl (h x)

theorem ran_rnd : Ran (.rnd x nn) s (writeV x (Config.randomByte s.draws &&& nn) (advance (drawByte s).2)) where
  mux := rfl
  regs r hr := readV_writeV_ne (by simpa [mayWrite] using hr) _ _
  draws h := absurd rfl (h x nn)

theorem ran_drw : Ran (.drw x y n) s (spriteDrawn x y n s) where
  mux := rfl
  regs r hr := spriteDrawn_sameRegsBut x y r (by simpa [mayWrite] using hr)
  disp _ h := absurd rfl (h x y n)

theorem ran_ldVxK : Ran (.ldVxK x) s (advance { s with wait := some x, keyPrev := s.keys }) where
  mux := rfl
  wait h := absurd rfl (h x)

theorem ran_ldDTVx : Ran (.ldDTVx x) s (advance { s with DT := readV s x }) where
  mux := rfl
  DT h := absurd rfl (h x)

theorem ran_ldSTVx : Ran (.ldSTVx x) s (advance { s with ST := readV s x }) where
  mux := rfl
  ST h := absurd rfl (h x)

theorem ran_ldB (bs : List Byte) (a : Nat) : Ran (.ldB x) s (storeBlock a bs (advance s)) where
  mux := rfl
  bytes h := absurd rfl (h x)

theorem ran_dump (bs : List Byte) (a : Nat) : Ran (.dump x) s (storeBlock a bs (advance s)) where
  mux := rfl
  bytes _ h := absurd rfl (h x)

theorem ran_load (bs : List Byte) (hbs : bs.length = x.val + 1) : Ran (.load x) s (loadBlock bs (advance s)) where
  mux := rfl
  regs r hr := by
    have hr' : ¬ r ≤ x := by simpa [mayWrite] using hr
    have habove : ¬ r.val < bs.length := fun h => hr' (Nat.le_of_lt_succ (h.trans_eq hbs))
    simp [readV_loadBlock, habove]

end

/-! ### Every instruction -/

/-- In the state `s` the instruction `i` answers a next state: it runs, or takes a fault of its list and changes nothing
but the fault status. -/
def Answers (i : Instr) (s : State) : Prop :=
  ∃ t, exec i s = .next t ∧ ((∃ c, c ∈ mayRaise i ∧ t = faulted c s) ∨ Ran i s t)

section
variable {i : Instr} {s : State}

theorem Answers.ran {t : State} (hran : Ran i s t) (hexec : exec i s = .next t) : Answers i s := ⟨t, hexec, .inr hran⟩

theorem Answers.fault {c : FaultCode} (hc : c ∈ mayRaise i) (hexec : exec i s = .next (raise c s)) : Answers i s :=
  ⟨_, hexec, .inl ⟨c, hc, rfl⟩⟩

end

theorem exec_answers (i : Instr) (s : State) : Answers i s := by
  cases i
  case cls => exact .ran (ran_cls s) rfl
  case ret =>
    rcases exec_ret_cases s with ⟨hopen, h⟩ | ⟨_, h⟩
    · exact .ran (ran_ret s hopen) h
    · exact .fault List.mem_cons_self h
  case jp nnn => exact .ran (.of_setPc (zext12_toNat nnn)) rfl
  case call nnn =>
    rcases exec_call_cases nnn s with ⟨hfree, h⟩ | ⟨_, h⟩
    · exact .ran (ran_call nnn s hfree) h
    · exact .fault List.mem_cons_self h
  case seImm | seReg | sneImm | sneReg => exact .ran (.of_skipIf (by simp [MuxAllows])) rfl
  case ldImm | addImm | ldReg | orReg | andReg | xorReg | ldVxDT => exact .ran (.of_writeV rfl (beq_self_eq_true _)) rfl
  case addReg | subReg | shr | subnReg | shl => exact .ran (.of_writeResultFlag rfl fun _ => rfl) rfl
  case ldI nnn => exact .ran (ran_ldI nnn s) rfl
  case jpV0 nnn => exact .ran (.of_setPc (zext12_add_zext8_toNat nnn (readV s 0))) rfl
  case rnd x nn => exact .ran (ran_rnd x nn s) rfl
  case drw x y n =>
    rcases exec_drw_cases x y n s with ⟨_, h⟩ | ⟨_, _, h⟩
    · exact .ran (ran_drw x y n s) h
    · exact .fault List.mem_cons_self h
  case skp x =>
    rcases exec_skp_cases x s with ⟨_, h⟩ | ⟨_, h⟩
    · exact .ran (.of_skipIf rfl) h
    · exact .fault List.mem_cons_self h
  case sknp x =>
    rcases exec_sknp_cases x s with ⟨_, h⟩ | ⟨_, h⟩
    · refine .ran (.of_skipIf ?mux) h
      case mux => by_cases hdown : s.keys.getLsbD (readV s x).toNat = true <;> simp [MuxAllows, keyDown, hdown]
    · exact .fault List.mem_cons_self h
  case ldVxK x => exact .ran (ran_ldVxK x s) rfl
  case ldDTVx x => exact .ran (ran_ldDTVx x s) rfl
  case ldSTVx x => exact .ran (ran_ldSTVx x s) rfl
  case addI x => exact .ran (ran_addI x s) rfl
  case ldF x => exact .ran (ran_ldF x s) rfl
  case ldB x =>
    rcases exec_ldB_cases x s with ⟨_, _, h⟩ | ⟨_, h⟩ | ⟨_, h⟩
    · exact .ran (ran_ldB x s _ _) h
    · exact .fault (by simp [mayRaise]) h
    · exact .fault (by simp [mayRaise]) h
  case dump x =>
    rcases exec_dump_cases x s with ⟨_, _, h⟩ | ⟨_, h⟩ | ⟨_, h⟩
    · exact .ran (ran_dump x s _ _) h
    · exact .fault (by simp [mayRaise]) h
    · exact .fault (by simp [mayRaise]) h
  case load x =>
    rcases exec_load_cases x s with ⟨_, h⟩ | ⟨_, h⟩
    · exact .ran (ran_load x s _ (by simp)) h
    · exact .fault List.mem_cons_self h

/-- What an instruction that answered `t` did. -/
theorem faulted_or_ran {i : Instr} {s t : State} (hexec : exec i s = .next t) :
    (∃ c, c ∈ mayRaise i ∧ t = faulted c s) ∨ Ran i s t := by
  obtain ⟨u, hu, hcases⟩ := exec_answers i s
  obtain rfl : u = t := Host.Outcome.next.inj (hu.symm.trans hexec)
  exact hcases

/-- Settles O47: a run leaves the fault status alone. -/
theorem execAnswersOrFaultsPrecisely : Obligations.ExecAnswersOrFaultsPrecisely := by
  intro i s
  obtain ⟨t, hexec, hfault | hran⟩ := exec_answers i s
  · exact ⟨t, hexec, .inl hfault⟩
  · exact ⟨t, hexec, .inr hran.status⟩

/-- Settles O48: a fault writes the fault status alone, and a run writes what its rules name. -/
theorem onlyTheListedInstructionsWriteState : Obligations.OnlyTheListedInstructionsWriteState := by
  intro i s t hexec
  obtain ⟨c, _, rfl⟩ | hran := faulted_or_ran hexec
  · exact ⟨fun _ _ _ => rfl, fun _ _ _ => rfl, fun _ _ => ⟨rfl, rfl⟩, fun _ _ => rfl, fun _ => rfl, fun _ => rfl,
      fun _ => ⟨rfl, rfl⟩, fun _ => rfl, rfl, rfl, rfl, rfl⟩
  · exact ⟨hran.bytes, hran.index, hran.stack, hran.disp, hran.DT, hran.ST, hran.wait, hran.draws, hran.outside⟩

/-- Settles O49: a fault writes no register, and a run writes those its rules name. -/
theorem onlyTheListedInstructionsWriteRegisters : Obligations.OnlyTheListedInstructionsWriteRegisters := by
  intro i s t r hexec hmay
  obtain ⟨c, _, rfl⟩ | hran := faulted_or_ran hexec
  · rfl
  · exact hran.regs r hmay

/-- Settles O50: the two ways an instruction can answer, the run seen by its `pc` alone. -/
theorem programCounterMux : Obligations.ProgramCounterMux := by
  intro i s t hexec
  obtain hfault | hran := faulted_or_ran hexec
  · exact .inr hfault
  · exact .inl hran.mux

end Sys2Proof.Proofs

/-! ## Invariants of the step (20_memory R41, R63; 10_state R36, R43; 60_exceptions R302) -/

namespace Sys2Proof.Proofs

open Sys2Proof Sys2Proof.Machine Sys2Proof.Claims

/-- A property that does not read the host's list, and that every case of a step keeps, is an invariant. -/
theorem step_keeps {P : State → Prop} (hhost : ∀ {s} rest, P s → P { s with host := rest })
    (hcase : ∀ {s t}, P s → StepCase s t → P t) {s t : State} (hs : P s) (hstep : step s = .next t) : P t := by
  obtain ⟨s0, rfl | ⟨rest, rfl⟩, hcases⟩ := step_cases hstep
  · exact hcase hs hcases
  · exact hcase (hhost rest hs) hcases

/-! ### Memory -/

/-- What a step can do to memory: nothing, empty it, or store one block inside 0x200..0xFFF. -/
def MemStep (s t : State) : Prop :=
  t.mem = s.mem ∨ t.mem = [] ∨
    ∃ a bs, 0x200 ≤ a ∧ a + bs.length ≤ 0x1000 ∧ t.mem = memSetRun s.config.font s.mem a bs

theorem stepCase_mem {s t : State} (hcase : StepCase s t) : t.config = s.config ∧ MemStep s t := by
  cases hcase with
  | frozen _ e => exact ⟨e ▸ rfl, .inl (e ▸ rfl)⟩
  | waited x _ _ e =>
    obtain ⟨V, w, hshape⟩ := waitStep_shape x (beginCycle s)
    rw [e, hshape]
    exact ⟨rfl, .inl rfl⟩
  | fetchFault c _ _ _ _ e => rw [e]; exact ⟨rfl, .inl rfl⟩
  | ran i _ _ _ e =>
    obtain ⟨hconfig, hsame | hstored⟩ := exec_mem e
    · exact ⟨hconfig, .inl hsame⟩
    · exact ⟨hconfig, .inr (.inr hstored)⟩
  | reset e => rw [e]; exact ⟨rfl, .inr (.inl rfl)⟩
  | romTooLarge _ _ e => rw [e]; exact ⟨rfl, .inl rfl⟩
  | loaded rom _ _ hfits e => rw [e]; exact ⟨rfl, .inr (.inr ⟨0x200, rom, le_rfl, by omega, rfl⟩)⟩
  | keys k e => rw [e]; exact ⟨rfl, .inl rfl⟩
  | tick e =>
    obtain ⟨d, u, hshape⟩ := hostTick_shape s
    rw [e, hshape]
    exact ⟨rfl, .inl rfl⟩

theorem stepCase_keeps_canonical {s t : State} (hcanon : MemCanonical s) (hcase : StepCase s t) : MemCanonical t := by
  obtain ⟨hconfig, hmem⟩ := stepCase_mem hcase
  unfold MemCanonical
  rw [hconfig]
  rcases hmem with hsame | hempty | ⟨a, bs, _, hfits, hstored⟩
  · rw [hsame]; exact hcanon
  · rw [hempty]; rfl
  · rw [hstored]; exact wf_memSetRun hcanon hfits

/-- Settles O52: a step leaves memory, empties it, or stores a block inside the address space. -/
theorem memoryStaysCanonical : Obligations.MemoryStaysCanonical := fun _ _ hcanon hstep =>
  step_keeps (P := MemCanonical) (fun _ h => h) stepCase_keeps_canonical hcanon hstep

theorem stepCase_keeps_reserved {s t : State} (hcanon : MemCanonical s) (hreserved : ReservedIntact s)
    (hcase : StepCase s t) : ReservedIntact t := by
  obtain ⟨hconfig, hmem⟩ := stepCase_mem hcase
  intro a ha
  unfold readByte
  rw [hconfig]
  rcases hmem with hsame | hempty | ⟨b, bs, hlow, hfits, hstored⟩
  · rw [hsame]; exact hreserved a ha
  · rw [hempty]; rfl
  · rw [hstored, memGet_memSetRun hcanon hfits, dif_neg (by omega)]; exact hreserved a ha

/-- Settles O53: no block a step stores reaches below 0x200. -/
theorem reservedRangeStaysIntact : Obligations.ReservedRangeStaysIntact := fun _ _ hcanon hreserved hstep =>
  (step_keeps (P := fun s => MemCanonical s ∧ ReservedIntact s) (fun _ h => h)
    (fun h hcase => ⟨stepCase_keeps_canonical h.1 hcase, stepCase_keeps_reserved h.1 h.2 hcase⟩)
    ⟨hcanon, hreserved⟩ hstep).2

/-! ### The fault status -/

theorem none_notMem_mayRaise (i : Instr) : FaultCode.none ∉ mayRaise i := by cases i <;> simp [mayRaise]

/-- A fault other than the code of none, taken by a core that is not waiting and accepts no Load, is consistent. -/
theorem faulted_consistent {c : FaultCode} {s : State} (hc : c ≠ .none) (hwait : s.wait = none)
    (hopen : s.loadOpen = false) : StatusConsistent (faulted c s) :=
  ⟨iff_of_true rfl hc, fun _ => hwait, fun _ => hopen, fun h => absurd hwait h⟩

/-- A core that runs without a fault and accepts no Load is consistent, waiting or not. -/
theorem running_consistent {s : State} (hhalted : s.halted = false) (hcode : s.faultCode = .none)
    (hopen : s.loadOpen = false) : StatusConsistent s := by
  refine ⟨?_, fun h => ?_, fun _ => hopen, fun _ => hopen⟩
  · simp [hhalted, hcode]
  · simp [hhalted] at h

theorem faultCode_eq_none_of_running {s : State} (hs : StatusConsistent s) (hhalted : s.halted = false) :
    s.faultCode = .none := by
  by_contra hcode
  simp [hs.1.mpr hcode] at hhalted

theorem wait_eq_none_of_loadOpen {s : State} (hs : StatusConsistent s) (hopen : s.loadOpen = true) :
    s.wait = none := by
  by_contra hwait
  simp [hs.2.2.2 hwait] at hopen

theorem reset_consistent : StatusConsistent State.reset := ⟨by decide, by decide, by decide, by decide⟩

theorem stepCase_keeps_status {s t : State} (hs : StatusConsistent s) (hcase : StepCase s t) : StatusConsistent t := by
  have hcode := faultCode_eq_none_of_running hs
  have hwaiting := wait_eq_none_of_loadOpen hs
  cases hcase with
  | frozen _ e => exact e ▸ hs
  | waited x hhalted _ e =>
    obtain ⟨V, w, hshape⟩ := waitStep_shape x (beginCycle s)
    rw [e, hshape]
    exact running_consistent hhalted (hcode hhalted) rfl
  | fetchFault c _ hwait hc _ e => exact e ▸ faulted_consistent hc hwait rfl
  | ran i hhalted hwait _ e =>
    obtain ⟨c, hc, rfl⟩ | hran := faulted_or_ran e
    · exact faulted_consistent (fun h => none_notMem_mayRaise i (h ▸ hc)) hwait rfl
    · obtain ⟨hhalted', hcode', _⟩ := hran.status
      obtain ⟨_, _, _, hopen'⟩ := hran.outside
      exact running_consistent (hhalted'.trans hhalted) (hcode'.trans (hcode hhalted)) hopen'
  | reset e => exact e ▸ reset_consistent
  | romTooLarge hopen _ e => exact e ▸ faulted_consistent (by decide) (hwaiting hopen) rfl
  | loaded rom _ hhalted _ e => exact e ▸ running_consistent hhalted (hcode hhalted) rfl
  | keys k e => exact e ▸ hs
  | tick e =>
    obtain ⟨d, u, hshape⟩ := hostTick_shape s
    rw [e, hshape]
    exact hs

/-- Settles O54: a fault halts a core that is not waiting and accepts no Load any more, and nothing else sets the fault
status. -/
theorem statusStaysConsistent : Obligations.StatusStaysConsistent := fun _ _ hs hstep =>
  step_keeps (P := StatusConsistent) (fun _ h => h) stepCase_keeps_status hs hstep

/-! ### The program counter and the stack -/

/-- Every stack slot holds an address at or below 0x1000. -/
def SlotsBounded (s : State) : Prop := ∀ k : Fin 16, s.stack[k].toNat ≤ 0x1000

theorem pc_add_two_le {s : State} (hpc : s.pc.toNat ≤ 0xFFE) : (s.pc + 2).toNat ≤ 0x1000 := by
  bv_omega

theorem pc_add_four_le {s : State} (hpc : s.pc.toNat ≤ 0xFFE) : (s.pc + 4).toNat ≤ 0x1002 := by
  bv_omega

/-- The mux of R93 selects at most 0xFFF + 0xFF when the instruction was fetched and the slots are bounded. -/
theorem muxAllows_le {i : Instr} {s : State} {pc : Word} (hmux : MuxAllows i s pc) (hpc : s.pc.toNat ≤ 0xFFE)
    (hslots : SlotsBounded s) : pc.toNat ≤ 0x10FE := by
  have h2 := pc_add_two_le hpc
  have h4 := pc_add_four_le hpc
  cases i
  case jp nnn | call nnn =>
    have hmux : pc.toNat = nnn.toNat := hmux
    have := nnn.isLt
    omega
  case jpV0 nnn =>
    have hmux : pc.toNat = nnn.toNat + (readV s 0).toNat := hmux
    have := nnn.isLt
    have := (readV s 0).isLt
    omega
  case ret =>
    obtain ⟨k, _, rfl⟩ := hmux
    exact (hslots k).trans (by omega)
  case seImm | sneImm | seReg | sneReg | skp | sknp =>
    simp only [MuxAllows] at hmux
    split at hmux <;> rw [hmux] <;> omega
  all_goals
    have hmux : pc = s.pc + 2 := hmux
    rw [hmux]; omega

theorem exec_keeps_slots {i : Instr} {s t : State} (hexec : exec i s = .next t) (hpc : s.pc.toNat ≤ 0xFFE)
    (hslots : SlotsBounded s) : SlotsBounded t := by
  obtain ⟨c, _, rfl⟩ | hran := faulted_or_ran hexec
  · exact hslots
  cases i
  case call nnn =>
    rcases exec_call_cases nnn s with ⟨hfree, h⟩ | ⟨_, h⟩ <;> cases h.symm.trans hexec
    · intro k
      simp only [called, setPc_stack, Fin.getElem_fin, Vector.getElem_set]
      split
      · exact pc_add_two_le hpc
      · exact hslots k
    · exact hslots
  case ret =>
    rcases exec_ret_cases s with ⟨_, h⟩ | ⟨_, h⟩ <;> cases h.symm.trans hexec
    · exact hslots
    · exact hslots
  all_goals
    obtain ⟨hstack, _⟩ := hran.stack (by simp) (by simp)
    unfold SlotsBounded
    rw [hstack]
    exact hslots

theorem exec_keeps_pcBounded {i : Instr} {s t : State} (hexec : exec i s = .next t) (hpc : s.pc.toNat ≤ 0xFFE)
    (hs : PcBounded s) : PcBounded t := by
  obtain ⟨hbound, hfault, hslots⟩ := hs
  have hslots' := exec_keeps_slots hexec hpc hslots
  obtain ⟨c, _, rfl⟩ | hran := faulted_or_ran hexec
  · exact ⟨hbound, hbound, hslots'⟩
  · obtain ⟨_, _, hfaultPc⟩ := hran.status
    exact ⟨muxAllows_le hran.mux hpc hslots, hfaultPc ▸ hfault, hslots'⟩

/-- Raising a fault records the bounded `pc`. -/
theorem raise_pcBounded {s : State} (c : FaultCode) (hs : PcBounded s) : PcBounded (raise c s) := ⟨hs.1, hs.1, hs.2.2⟩

theorem reset_pcBounded : PcBounded State.reset := ⟨by decide, by decide, by decide⟩

theorem stepCase_keeps_pcBounded {s t : State} (hs : PcBounded s) (hcase : StepCase s t) : PcBounded t := by
  cases hcase with
  | frozen _ e => exact e ▸ hs
  | waited x _ _ e =>
    obtain ⟨V, w, hshape⟩ := waitStep_shape x (beginCycle s)
    rw [e, hshape]
    exact hs
  | fetchFault c _ _ _ _ e => exact e ▸ raise_pcBounded (s := beginCycle s) c hs
  | ran i _ _ hfetch e =>
    obtain ⟨hpc, _, _⟩ := fetchInstr_ok hfetch
    exact exec_keeps_pcBounded (s := beginCycle s) e hpc hs
  | reset e => exact e ▸ reset_pcBounded
  | romTooLarge _ _ e => exact e ▸ raise_pcBounded (s := { s with loadOpen := false }) _ hs
  | loaded rom _ _ _ e => exact e ▸ hs
  | keys k e => exact e ▸ hs
  | tick e =>
    obtain ⟨d, u, hshape⟩ := hostTick_shape s
    rw [e, hshape]
    exact hs

/-- Settles O55: an instruction is fetched at or below 0xFFE, so neither the mux nor a pushed return address exceeds its
bound, and a fault records a bounded `pc`. -/
theorem pcStaysBounded : Obligations.PcStaysBounded := fun _ _ hs hstep =>
  step_keeps (P := PcBounded) (fun _ h => h) stepCase_keeps_pcBounded hs hstep

/-- Settles O56: memory is empty after reset, and the other elements are at values that meet each bound. -/
theorem resetMeetsInvariants : Obligations.ResetMeetsInvariants :=
  ⟨rfl, fun _ _ => rfl, reset_consistent, reset_pcBounded⟩

/-! ### Every step answers -/

theorem cycle_answers (s : State) : ∃ t, cycle s = .next t := by
  rcases cycle_cases s with ⟨_, e⟩ | ⟨_, x, _, e⟩ | ⟨_, _, c, _, e⟩ | ⟨_, _, i, _, e⟩
  · exact ⟨_, e⟩
  · exact ⟨_, e⟩
  · exact ⟨_, e⟩
  · obtain ⟨t, hexec, _⟩ := exec_answers i (beginCycle s)
    exact ⟨t, e.trans hexec⟩

theorem perform_answers_or_refused (op : HostOp) (s : State) : (∃ t, perform op s = .next t) ∨
    ∃ rom, op = .load rom ∧ (s.loadOpen = false ∨ s.halted = true) ∧ perform op s = .refused .loadNotAdmitted := by
  cases op with
  | reset => exact .inl ⟨_, rfl⟩
  | load rom =>
    rcases hostLoad_cases rom s with ⟨hrefused, e⟩ | ⟨_, _, _, e⟩ | ⟨_, _, _, e⟩
    · exact .inr ⟨rom, rfl, hrefused, e⟩
    · exact .inl ⟨_, e⟩
    · exact .inl ⟨_, e⟩
  | setKeys k => exact .inl ⟨_, rfl⟩
  | cycle => exact .inl (cycle_answers s)
  | tick => exact .inl ⟨_, rfl⟩

/-- Settles O51: each operation answers a next state or is the refused Load, and no case of a step writes the
parameters. -/
theorem stepAnswersUnlessLoadRefused : Obligations.StepAnswersUnlessLoadRefused := by
  intro s
  rcases nextOp_cases s with ⟨_, hop⟩ | ⟨op, rest, hhost, hop⟩ <;> rw [step_perform hop]
  · obtain ⟨t, ht⟩ := cycle_answers s
    exact .inl ⟨t, ht, (stepCase_mem (cycle_stepCase ht)).1⟩
  · rcases perform_answers_or_refused op { s with host := rest } with ⟨t, ht⟩ | ⟨rom, rfl, hrefused, h⟩
    · exact .inl ⟨t, ht, (stepCase_mem (perform_stepCase ht)).1⟩
    · exact .inr ⟨rom, rest, hhost, hrefused, h⟩

/-! ### One canonical memory for each contents -/

section
variable {font : Vector Byte 80} {low low' k : Nat} {b : Byte} {m m' : Memory}

theorem wfFrom_cons : wfFrom font low ((k, b) :: m) = true ↔
    low ≤ k ∧ k < 0x1000 ∧ b ≠ resetByte font k ∧ wfFrom font (k + 1) m = true := by
  simp [wfFrom, and_assoc]

/-- A memory that reads like a canonical one starts no later than its first cell: above it, that cell would read as its
reset contents. -/
theorem first_le_of_reads (hm : wfFrom font low ((k, b) :: m) = true) (hm' : wfFrom font low' m' = true)
    (hreads : ∀ a, memGet font ((k, b) :: m) a = memGet font m' a) : ¬ k < low' := by
  intro hk
  obtain ⟨_, _, hb, _⟩ := wfFrom_cons.mp hm
  have hread := hreads k
  rw [memGet_below hk hm', memGet_cons, if_pos rfl] at hread
  exact hb hread

/-- By induction along both lists: the first cells have the same address, so the same byte, and the tails read alike. -/
theorem wfFrom_ext : ∀ {m m' : Memory} {low low' : Nat}, wfFrom font low m = true → wfFrom font low' m' = true →
    (∀ a, memGet font m a = memGet font m' a) → m = m'
  | [], [], _, _, _, _, _ => rfl
  | [], (k, b) :: m', _, _, _, hm', hreads =>
    absurd (Nat.lt_succ_self k) (first_le_of_reads (low' := k + 1) hm' rfl fun a => (hreads a).symm)
  | (k, b) :: m, [], _, _, hm, _, hreads =>
    absurd (Nat.lt_succ_self k) (first_le_of_reads (low' := k + 1) hm rfl hreads)
  | (k, b) :: m, (k', b') :: m', _, _, hm, hm', hreads => by
    obtain ⟨_, hk, hb, htail⟩ := wfFrom_cons.mp hm
    obtain ⟨_, hk', hb', htail'⟩ := wfFrom_cons.mp hm'
    have hle : k' ≤ k := Nat.le_of_not_lt
      (first_le_of_reads hm (wfFrom_cons.mpr ⟨le_rfl, hk', hb', htail'⟩) hreads)
    have hge : k ≤ k' := Nat.le_of_not_lt
      (first_le_of_reads hm' (wfFrom_cons.mpr ⟨le_rfl, hk, hb, htail⟩) fun a => (hreads a).symm)
    obtain rfl : k = k' := Nat.le_antisymm hge hle
    obtain rfl : b = b' := by simpa [memGet_cons] using hreads k
    have htails (a : Nat) : memGet font m a = memGet font m' a := by
      rw [memGet_tail hm, memGet_tail hm', hreads]
    rw [wfFrom_ext htail htail' htails]

end

/-- Settles O57: canonical form is canonical form from address 0. -/
theorem canonicalMemoryIsDeterminedByReads : Obligations.CanonicalMemoryIsDeterminedByReads :=
  fun _ _ _ hm hm' hreads => wfFrom_ext hm hm' hreads

end Sys2Proof.Proofs
